-- ==== Sys2Proof/Word.lean ====
section
/-! DEFINITION. The word types of the core (spec 00_scope rule R7): a byte is 8 bits, a word is 64
bits, all values are unsigned. A command word has 80 bits and a response word 72 (30_encoding rules
R70 and R72). -/

namespace Sys2Proof

/-- A byte: 8 bits (R7). -/
abbrev Byte := BitVec 8

/-- A word, the spec's `u64`: 64 bits (R7). -/
abbrev Word := BitVec 64

/-- A command word, format C80 (R70). -/
abbrev CommandWord := BitVec 80

/-- A response word, format R72 (R72). -/
abbrev ResponseWord := BitVec 72

end Sys2Proof
end

