-- ==== Sys2Proof/Syntax.lean ====
section
/-! DEFINITION. The thirteen commands (spec 30_encoding rule R73), the pseudo-instructions (rules R81 to
R83), and the reason a command word is rejected by the decoder (rule R76). -/

namespace Sys2Proof

/-- The thirteen opcodes by name (R73). -/
inductive Opcode where
  | rst | wrreg | rdreg | defsec | gensec | init
  | put8 | put16 | put32 | put64 | putc | putb
  | fin
  deriving DecidableEq, Repr

/-- One constructor per row of the opcode table. A constructor carries exactly the fields R73 does not
call ignored, each as wide as the command uses it (R74); an illegal operand value of a legal opcode is a
term of this type, and the command's meaning raises the fault (R71: "Operand checks (rule R77) happen
after the command is selected"). -/
inductive Instr where
  /-- `RST` (41_config R100) -/
  | rst
  /-- `WRREG idx, v` (41_config R101) -/
  | wrreg (idx : Byte) (v : Word)
  /-- `RDREG idx` (41_config R102) -/
  | rdreg (idx : Byte)
  /-- `DEFSEC` (41_config R103) -/
  | defsec
  /-- `GENSEC seedS` (44_secret_gen R165) -/
  | gensec (seedS : Word)
  /-- `INIT` (41_config R104) -/
  | init
  /-- `PUT8 v` (42_put R124) -/
  | put8 (v : BitVec 8)
  /-- `PUT16 v` (42_put R125) -/
  | put16 (v : BitVec 16)
  /-- `PUT32 v` (42_put R126) -/
  | put32 (v : BitVec 32)
  /-- `PUT64 v` (42_put R128) -/
  | put64 (v : BitVec 64)
  /-- `PUTC c` (42_put R127) -/
  | putc (c : BitVec 16)
  /-- `PUTB n, v` (42_put R129); `v` is carried whole, its ignored bits above `8n` too (log entry 15) -/
  | putb (n : Byte) (v : Word)
  /-- `FIN` (43_finalize R141) -/
  | fin
  deriving DecidableEq, Repr

/-- Why the decoder rejects a command word: its `op` field is none of the thirteen (R76). -/
inductive DecodeError where
  | illegalOpcode (op : Byte)
  deriving DecidableEq, Repr

/-- A pseudo-instruction of the assembler (R81, R82, R83). The signed puts carry the signed value's
two's complement bits at its own width. -/
inductive PseudoInstr where
  /-- `LDSEED v` -/
  | ldseed (v : Word)
  /-- `LDSEC k, v`, `k = 0 .. 3` -/
  | ldsec (k : Fin 4) (v : Word)
  /-- `PUTI8 v`, signed -/
  | puti8 (v : BitVec 8)
  /-- `PUTI16 v`, signed -/
  | puti16 (v : BitVec 16)
  /-- `PUTI32 v`, signed -/
  | puti32 (v : BitVec 32)
  /-- `PUTI64 v`, signed -/
  | puti64 (v : BitVec 64)
  /-- `PUTU8 v`, unsigned -/
  | putu8 (v : BitVec 8)
  /-- `PUTU16 v`, unsigned -/
  | putu16 (v : BitVec 16)
  /-- `PUTU32 v`, unsigned -/
  | putu32 (v : BitVec 32)
  /-- `PUTU64 v`, unsigned -/
  | putu64 (v : BitVec 64)
  /-- `RDRES` -/
  | rdres
  /-- `RDST` -/
  | rdst
  /-- `HASH64 seed, b0 b1 ...` -/
  | hash64 (seed : Word) (bytes : List Byte)
  /-- `HASH64S seed, secretSeed, b0 b1 ...` -/
  | hash64s (seed secretSeed : Word) (bytes : List Byte)
  /-- `PUTBYTES b0 b1 ...` -/
  | putbytes (bytes : List Byte)
  /-- `PUTCHARS c0 c1 ...` -/
  | putchars (chars : List (BitVec 16))
  deriving DecidableEq, Repr

end Sys2Proof
end

