-- ==== Sys2Proof/WellFormed.lean ====
section
/-! DEFINITION. Which commands have legal operands (spec 30_encoding rule R77). Every other command
is executed too: it takes `ILLEGAL_OPERAND`. -/

namespace Sys2Proof

/-- An index `WRREG` may write: `CFG_SEED` or `CFG_SECRET0..3` (R77). -/
def writableIndex (idx : Byte) : Bool := decide (1 ≤ idx.toNat ∧ idx.toNat ≤ 5)

/-- An index `RDREG` may read (R77, 10_state rule R33). -/
def readableIndex (idx : Byte) : Bool := decide (idx.toNat ≤ 15)

/-- A byte count `PUTB` may carry (R77). -/
def legalCount (n : Byte) : Bool := decide (n.toNat ≤ 8)

/-- The operands of the command are legal (R77): only `WRREG`, `RDREG` and `PUTB` have an operand that
can be illegal. -/
def Instr.wellFormed : Instr → Bool
  | .wrreg idx _ => writableIndex idx
  | .rdreg idx => readableIndex idx
  | .putb n _ => legalCount n
  | .rst => true
  | .defsec => true
  | .gensec _ => true
  | .init => true
  | .put8 _ => true
  | .put16 _ => true
  | .put32 _ => true
  | .put64 _ => true
  | .putc _ => true
  | .fin => true

end Sys2Proof
end

