-- ==== Sys2Proof/Decode.lean ====
section
/-! DEFINITION. The decoder and the encoder of command words (spec 30_encoding rules R70, R71, R73 to
R76, R78). The decoder is total: every 80-bit word is one of the thirteen commands or an illegal
opcode. -/

namespace Sys2Proof

/-- `op`, bits 79:72 (R70). -/
def opField (w : CommandWord) : Byte := w.extractLsb' 72 8

/-- `arg`, bits 71:64 (R70). -/
def argField (w : CommandWord) : Byte := w.extractLsb' 64 8

/-- `data`, bits 63:0 (R70). -/
def dataField (w : CommandWord) : Word := w.extractLsb' 0 64

/-- The command word with the three given fields (R70). -/
def commandWord (op arg : Byte) (data : Word) : CommandWord := op ++ arg ++ data

/-- The opcode values (R73). -/
def opcodeBits : Opcode → Byte
  | .rst => 0x01
  | .wrreg => 0x02
  | .rdreg => 0x03
  | .defsec => 0x04
  | .gensec => 0x05
  | .init => 0x08
  | .put8 => 0x10
  | .put16 => 0x11
  | .put32 => 0x12
  | .put64 => 0x13
  | .putc => 0x14
  | .putb => 0x15
  | .fin => 0x20

/-- The complete command set, in the order of R73. -/
def allOpcodes : List Opcode :=
  [.rst, .wrreg, .rdreg, .defsec, .gensec, .init, .put8, .put16, .put32, .put64, .putc, .putb, .fin]

/-- The command an `op` field selects (R71); none for the 243 illegal values (R76). -/
def opcodeOfBits (b : Byte) : Option Opcode := allOpcodes.find? (fun o => opcodeBits o == b)

/-- The instruction of an opcode and the two operand fields. The fields R73 calls ignored, and the bits of
`data` above a fixed-width put's value, take no part (R74, R75). -/
def assemble (arg : Byte) (data : Word) : Opcode → Instr
  | .rst => .rst
  | .wrreg => .wrreg arg data
  | .rdreg => .rdreg arg
  | .defsec => .defsec
  | .gensec => .gensec data
  | .init => .init
  | .put8 => .put8 (data.extractLsb' 0 8)
  | .put16 => .put16 (data.extractLsb' 0 16)
  | .put32 => .put32 (data.extractLsb' 0 32)
  | .put64 => .put64 data
  | .putc => .putc (data.extractLsb' 0 16)
  | .putb => .putb arg data
  | .fin => .fin

/-- The decoder (R71, R76, R78). -/
def decode (w : CommandWord) : Except DecodeError Instr :=
  match opcodeOfBits (opField w) with
  | some o => .ok (assemble (argField w) (dataField w) o)
  | none => .error (.illegalOpcode (opField w))

/-- The opcode of an instruction. -/
def opcodeOf : Instr → Opcode
  | .rst => .rst
  | .wrreg _ _ => .wrreg
  | .rdreg _ => .rdreg
  | .defsec => .defsec
  | .gensec _ => .gensec
  | .init => .init
  | .put8 _ => .put8
  | .put16 _ => .put16
  | .put32 _ => .put32
  | .put64 _ => .put64
  | .putc _ => .putc
  | .putb _ _ => .putb
  | .fin => .fin

/-- The `arg` field the encoder emits: 0 where R73 says ignored (R75: "Assemblers emit 0 there"). -/
def encodedArg : Instr → Byte
  | .wrreg idx _ => idx
  | .rdreg idx => idx
  | .putb n _ => n
  | .rst => 0
  | .defsec => 0
  | .gensec _ => 0
  | .init => 0
  | .put8 _ => 0
  | .put16 _ => 0
  | .put32 _ => 0
  | .put64 _ => 0
  | .putc _ => 0
  | .fin => 0

/-- The `data` field the encoder emits: 0 in every bit R73 calls ignored and above a fixed-width put's operand.
DESIGN CHOICE: the `v` of a `PUTB` is emitted whole, its bits above `8n` included, so that decoding an encoded term
gives it back; R75 and U8 have an assembler emit 0 there (log entry 15). -/
def encodedData : Instr → Word
  | .wrreg _ v => v
  | .rdreg _ => 0
  | .putb _ v => v
  | .rst => 0
  | .defsec => 0
  | .gensec seedS => seedS
  | .init => 0
  | .put8 v => v.setWidth 64
  | .put16 v => v.setWidth 64
  | .put32 v => v.setWidth 64
  | .put64 v => v
  | .putc c => c.setWidth 64
  | .fin => 0

/-- The encoder (R70, R73): every command is exactly one word. -/
def encode (i : Instr) : CommandWord :=
  commandWord (opcodeBits (opcodeOf i)) (encodedArg i) (encodedData i)

/-- The command word whose bits are the low `nbits` bits of `w`, numbered as the opcode table numbers
them; the bits above are 0. -/
def tableWord (nbits w : Nat) : CommandWord := BitVec.ofNat 80 (w % 2 ^ nbits)

/-- What the decoder reads from the word of an opcode-table row; none where it refuses. -/
def decodeTableWord (nbits w : Nat) : Option Instr :=
  match decode (tableWord nbits w) with
  | .ok i => some i
  | .error _ => none

end Sys2Proof
end

