-- ==== Sys2Proof/Config.lean ====
section
/-! DEFINITION. The parameters of spec 00_scope rule R6 that are not fixed by the rules themselves, and
the free value. The values marked PRESUMED are the spec's own "value for this hardware", which the spec
marks as general knowledge (93_implementation_defined G1, G10, G11; log entry 1). -/

namespace Sys2Proof

/-- A secret schedule, `secret[0..3]` (44_secret_gen rule R160): an ordered sequence of exactly four words. -/
structure Schedule where
  c0 : Word
  c1 : Word
  c2 : Word
  c3 : Word
  deriving DecidableEq, Repr

/-- The parameters of the schedule generator (44_secret_gen rule R162). `SS_LEN` is `table.length`. -/
structure GenParams where
  /-- `SS_INC` -/
  inc : Word
  /-- `SS_XOR` -/
  xorc : Word
  /-- `SS_TABLE` -/
  table : List Byte
  deriving DecidableEq, Repr

namespace Config

/-- `RESET_SEED` (R6, decision D13). -/
def resetSeed : Word := 0

/-- `DEFAULT_SECRET[0..3]` (R6). PRESUMED (G1; log entry 1), unsafe: the source gives no value. -/
def defaultSecret : Schedule where
  c0 := 0xa0761d6478bd642f
  c1 := 0xe7037ed1a0b428db
  c2 := 0x8ebc6af09c88c6e3
  c3 := 0x589965cc75374cc3

/-- The first half of `SS_TABLE` (R162): the entries below 128. -/
def ssTableLow : List Byte :=
  [15, 23, 27, 29, 30, 39, 43, 45, 46, 51, 53, 54] ++
  [57, 58, 60, 71, 75, 77, 78, 83, 85, 86, 89, 90] ++
  [92, 99, 101, 102, 105, 106, 108, 113, 114, 116, 120]

/-- The second half of `SS_TABLE` (R162): the entries from 128 up. -/
def ssTableHigh : List Byte :=
  [135, 139, 141, 142, 147, 149, 150, 153, 154, 156, 163, 165] ++
  [166, 169, 170, 172, 177, 178, 180, 184, 195, 197, 198, 201] ++
  [202, 204, 209, 210, 212, 216, 225, 226, 228, 232, 240]

/-- `SS_INC`, `SS_XOR`, `SS_TABLE` (R162). PRESUMED (G10, G11; log entry 1), unsafe. The length of the
table is never written: the generator takes it from the table (90_conflicts C7). -/
def genParams : GenParams where
  inc := 0xa0761d6478bd642f
  xorc := 0xe7037ed1a0b428db
  table := ssTableLow ++ ssTableHigh

/-- How far `SS_RETRY_CAP` lies above 4096: left open by the spec (decision D20), so it has no body. -/
opaque retryCapAbove : Nat

/-- `SS_RETRY_CAP`, the most candidates tried per slot. The spec leaves it OPEN (D20) and says only that
it must be generous, "a cap below a few thousand makes GEN_EXHAUSTED reachable for ordinary seeds"
(44_secret_gen rule R167). DESIGN CHOICE (log entry 3): finite, at least 4096, otherwise open. -/
def ssRetryCap : Nat := retryCapAbove + 4096

/-- The `n`-th free value: what `RES` holds after a reset or `RST` until a `FIN` has run, which the spec
calls "any value" (10_state rule R34, 93_implementation_defined U6). It has no body (log entry 4). -/
opaque freeRes : Nat → Word

end Config

end Sys2Proof
end

