-- ==== Sys2Proof/Machine/State.lean ====
section
/-! DEFINITION. The architectural state (spec 10_state rules R20 to R46), the faults a command raises
(60_exceptions rule R180), the ways the model itself stops, and the state after reset. -/

namespace Sys2Proof.Machine

/-- The buffer `BUF[0..55]` (R27) as address and byte pairs, addresses strictly rising. A byte that is
not listed has no value (log entry 5). -/
abbrev Memory := List Host.Cell

/-- The fault causes of 60_exceptions rule R180. Taking one is a next state, not a stop (R181, R183). -/
inductive FaultCause where
  /-- `ILLEGAL_OPCODE`: `op` is none of the thirteen opcodes. -/
  | illegalOpcode
  /-- `ILLEGAL_OPERAND`: `PUTB` with `arg > 8`, `RDREG` with `arg > 0x0F`, `WRREG` outside `0x01 .. 0x05`. -/
  | illegalOperand
  /-- `COUNT_OVERFLOW`: a put with `CNT + n >= 2^64`. -/
  | countOverflow
  /-- `GEN_EXHAUSTED`: a slot of `GENSEC` rejected `SS_RETRY_CAP` candidates. -/
  | genExhausted
  deriving DecidableEq, Repr

/-- Where the model stops. No state that satisfies the invariants of 10_state section 7 reaches either:
rule R55 ("No bounds fault exists because none can occur") and rule R45 ("No rule reads a buffer byte that
has not been written since reset"). -/
inductive Fault where
  /-- A buffer access to an address outside `0 .. 55`, which does not exist (R50). Raised by the puts and
  by `FIN`, only when `OFF > 48`, which R41 excludes. Safe: the model stops where the spec says nothing
  (log entry 6). -/
  | bufferBounds (addr : Nat)
  /-- A read of a buffer byte nothing has written since reset. Raised by the puts' block absorption and by
  `FIN`, only in states R42 and R44 exclude. Safe: the model stops where the byte would be "any value"
  (93_implementation_defined U7; log entry 5). -/
  | unwrittenByte (addr : Nat)
  deriving DecidableEq, Repr

/-- Instructions without a meaning. Every command has one, so no arm of `exec` uses it. -/
inductive Refusal where
  /-- Raised by an arm of `exec` whose instruction is not modelled yet: safe. -/
  | notModelled (mnemonic : String)
  deriving DecidableEq, Repr

/-- The fields of `STATUS` (R35). The reserved bits 3:2 and 63:16 hold nothing and read 0. -/
structure Status where
  /-- bit 0: `RES` is the hash of the current stream -/
  resv : Bool
  /-- bit 1: at least one command has been rejected since reset -/
  fault : Bool
  /-- bits 7:4: the code of the first fault since reset -/
  fcause : BitVec 4
  /-- bits 15:8: the `op` field of the command that raised the first fault -/
  fop : Byte
  deriving DecidableEq, Repr

/-- What the host does to the core (00_scope rule R12, 70_reset_and_hazards rule R200). -/
inductive HostAct where
  /-- present one command word -/
  | command (w : CommandWord)
  /-- apply the hardware reset (log entry 8) -/
  | reset
  deriving DecidableEq, Repr

structure State where
  /-- `SEE0` (R22) -/
  see0 : Word
  /-- `SEE1` (R22) -/
  see1 : Word
  /-- `SEE2` (R22) -/
  see2 : Word
  /-- `IS`, the initial seed bound by the last `INIT` (R23) -/
  is : Word
  /-- `S1` (R24) -/
  s1 : Word
  /-- `S2` (R24) -/
  s2 : Word
  /-- `S3` (R24) -/
  s3 : Word
  /-- `CNT`, the number of stream bytes (R25) -/
  cnt : Word
  /-- `OFF`, the fill offset, 6 bits wide (R26) -/
  off : BitVec 6
  /-- `BUF[0..55]` (R27) -/
  buf : Memory
  /-- `CFG_SEED` (R31) -/
  cfgSeed : Word
  /-- `CFG_SECRET0` (R32) -/
  cfgSecret0 : Word
  /-- `CFG_SECRET1` (R32) -/
  cfgSecret1 : Word
  /-- `CFG_SECRET2` (R32) -/
  cfgSecret2 : Word
  /-- `CFG_SECRET3` (R32) -/
  cfgSecret3 : Word
  /-- `RES` (R34) -/
  res : Word
  /-- `STATUS` (R35) -/
  status : Status
  /-- the ghost `STREAM` (00_scope rule R10): not stored by the hardware, read by no meaning (log entry 9) -/
  stream : List Byte
  /-- the host's actions still to come, in order; the model's own field (log entry 7) -/
  inbox : List HostAct
  /-- the responses returned so far, oldest first; the model's own field (log entry 7) -/
  responses : List ResponseWord
  /-- the number of free values drawn so far; the model's own field (log entry 4) -/
  freeIdx : Nat
  deriving DecidableEq, Repr

/-- The state right after hardware reset (R46, R200): a fresh computation of the default family with
seed 0. `RES` is the free value 0 (log entry 4), `BUF` lists nothing (log entry 5), and the host has
presented nothing yet (R201; log entry 7). -/
def State.reset : State where
  see0 := Config.resetSeed ^^^ Config.defaultSecret.c0
  see1 := Config.resetSeed ^^^ Config.defaultSecret.c0
  see2 := Config.resetSeed ^^^ Config.defaultSecret.c0
  is := Config.resetSeed ^^^ Config.defaultSecret.c0
  s1 := Config.defaultSecret.c1
  s2 := Config.defaultSecret.c2
  s3 := Config.defaultSecret.c3
  cnt := 0
  off := 0
  buf := []
  cfgSeed := Config.resetSeed
  cfgSecret0 := Config.defaultSecret.c0
  cfgSecret1 := Config.defaultSecret.c1
  cfgSecret2 := Config.defaultSecret.c2
  cfgSecret3 := Config.defaultSecret.c3
  res := Config.freeRes 0
  status := { resv := false, fault := false, fcause := 0, fop := 0 }
  stream := []
  inbox := []
  responses := []
  freeIdx := 1

end Sys2Proof.Machine
end

