-- ==== Sys2Proof/Machine/Flags.lean ====
section
/-! DEFINITION. `STATUS` (spec 10_state rule R35): how it reads, and the computations that set and clear its
flags. `RESV` and `FAULT` are the only flags of the core. -/

namespace Sys2Proof.Machine

/-- The code of a fault cause: four bits in `FCAUSE`, the low bits of `rc` in a response (60_exceptions
rule R180). -/
def FaultCause.code : FaultCause → BitVec 4
  | .illegalOpcode => 0x1
  | .illegalOperand => 0x2
  | .countOverflow => 0x3
  | .genExhausted => 0x4

/-- The 16 used bits of `STATUS`: `FOP`, `FCAUSE`, two zeros, `FAULT`, `RESV` (R35). -/
def Status.bits (st : Status) : BitVec 16 :=
  st.fop ++ st.fcause ++ 0#2 ++ BitVec.ofBool st.fault ++ BitVec.ofBool st.resv

/-- `STATUS` as `RDREG` reads it, bits 63:16 zero (R33, R35). -/
def Status.word (st : Status) : Word := st.bits.setWidth 64

/-- `STATUS.RESV <- b`. -/
def Status.setResv (st : Status) (b : Bool) : Status := { st with resv := b }

/-- The fault record: only the first fault since reset is recorded (60_exceptions rules R181, R185). -/
def Status.record (st : Status) (c : FaultCause) (op : Byte) : Status :=
  if st.fault then st else { st with fault := true, fcause := c.code, fop := op }

/-- `STATUS` with every field 0 (10_state rule R46). -/
def Status.clear : Status := { resv := false, fault := false, fcause := 0, fop := 0 }

end Sys2Proof.Machine
end

