-- ==== Sys2Proof/Machine/Operands.lean ====
section
/-! DEFINITION. Byte sequences and words: how a put takes its bytes from `data` (spec 30_encoding rule R74,
20_memory rule R53) and how words are read from a byte sequence, little-endian (20_memory rule R52,
00_scope rule R9). -/

namespace Sys2Proof.Machine

/-- Byte `k` of a word: `v[8k+7:8k]` (00_scope rule R7). -/
def byteOf (v : Word) (k : Nat) : Byte := v.extractLsb' (8 * k) 8

/-- The low `n` bytes of a word, least significant first: what a put of `n` bytes appends (R53, R74). -/
def valueBytes (n : Nat) (v : Word) : List Byte := (List.range n).map (byteOf v)

/-- The number whose bytes are given, the first least significant (R52). -/
def leNat : List Byte → Nat
  | [] => 0
  | b :: bs => b.toNat + 256 * leNat bs

/-- `T[k]` as a word, zero extended (R9; 20_memory rule R62: "every value read is zero-extended"). -/
def byteAt (T : List Byte) (k : Nat) : Word := BitVec.ofNat 64 (T.getD k 0).toNat

/-- `le32(T, i)` as a word, zero extended (R9). -/
def le32 (T : List Byte) (i : Nat) : Word := BitVec.ofNat 64 (leNat ((T.drop i).take 4))

/-- `le64(T, i)` (R9). -/
def le64 (T : List Byte) (i : Nat) : Word := BitVec.ofNat 64 (leNat ((T.drop i).take 8))

end Sys2Proof.Machine
end

