-- ==== Sys2Proof/Machine/Wyhash.lean ====
section
/-! DEFINITION. The arithmetic of the hash: the mixing primitive (spec 40_mix rule R90), the short read
patterns, the finishing function and the block update (43_finalize rules R142, R143, R147; 42_put rule
R122), and the reference function `WYHASH64` over a whole byte sequence (rule R140). The formulas are the
spec's, which marks them general knowledge (log entry 2). -/

namespace Sys2Proof.Machine

/-- `mix(a, b)`: the full 128-bit product, its two halves xored (R90). -/
def mix (a b : Word) : Word :=
  let p : BitVec 128 := a.setWidth 128 * b.setWidth 128
  p.extractLsb' 0 64 ^^^ p.extractLsb' 64 64

/-- `SHORT_AB(T, n)` (R142 for `4 <= n`, R143 for `n <= 3`). -/
def shortAB (T : List Byte) (n : Nat) : Word × Word :=
  if n = 0 then (0, 0)
  else if n ≤ 3 then
    ((byteAt T 0 <<< 16) ||| (byteAt T (n / 2) <<< 8) ||| byteAt T (n - 1), 0)
  else
    let q := (n / 8) * 4
    ((le32 T 0 <<< 32) ||| le32 T q, (le32 T (n - 4) <<< 32) ||| le32 T (n - 4 - q))

/-- `FINISH(a, b, s, n, s1)` (R147). -/
def finish (a b s n s1 : Word) : Word := mix (s1 ^^^ n) (mix (a ^^^ s1) (b ^^^ s))

/-- The three accumulators (42_put rule R122). -/
structure Acc where
  e0 : Word
  e1 : Word
  e2 : Word
  deriving DecidableEq, Repr

/-- The three-accumulator update by the six words of one block (R122). -/
def absorbWords (s1 s2 s3 w0 w1 w2 w3 w4 w5 : Word) (e : Acc) : Acc where
  e0 := mix (w0 ^^^ s1) (w1 ^^^ e.e0)
  e1 := mix (w2 ^^^ s2) (w3 ^^^ e.e1)
  e2 := mix (w4 ^^^ s3) (w5 ^^^ e.e2)

/-- The update by the block of `B` that starts at index `p` (the body of R140's block loop). -/
def absorbBlock (s1 s2 s3 : Word) (B : List Byte) (p : Nat) (e : Acc) : Acc :=
  absorbWords s1 s2 s3 (le64 B p) (le64 B (p + 8)) (le64 B (p + 16)) (le64 B (p + 24))
    (le64 B (p + 32)) (le64 B (p + 40)) e

/-- The fold of the accumulators (R140, R144). -/
def Acc.fold (e : Acc) : Word := e.e0 ^^^ e.e1 ^^^ e.e2

/-- One 16-byte segment folded into the running seed (R140, R144). -/
def segment (s1 w0 w1 s : Word) : Word := mix (w0 ^^^ s1) (w1 ^^^ s)

/-- R140's block loop: while more than 48 bytes are left; `p` is the next unread index, `i` the bytes left.
Each round takes 48 of the bytes left, so `fuel = i` rounds are enough. -/
def blockLoop (B : List Byte) (s1 s2 s3 : Word) : Nat → Nat → Nat → Acc → Nat × Nat × Acc
  | 0, p, i, e => (p, i, e)
  | fuel + 1, p, i, e =>
    if 48 < i then blockLoop B s1 s2 s3 fuel (p + 48) (i - 48) (absorbBlock s1 s2 s3 B p e)
    else (p, i, e)

/-- R140's segment loop: while more than 16 bytes are left. -/
def segmentLoop (B : List Byte) (s1 : Word) : Nat → Nat → Nat → Word → Word
  | 0, _, _, s => s
  | fuel + 1, p, i, s =>
    if 16 < i then segmentLoop B s1 fuel (p + 16) (i - 16) (segment s1 (le64 B p) (le64 B (p + 8)) s)
    else s

/-- The words `a`, `b` and the folded seed for more than 16 bytes (the long branch of R140). -/
def longABS (B : List Byte) (s s1 s2 s3 : Word) : Word × Word × Word :=
  let n := B.length
  let r := blockLoop B s1 s2 s3 n 0 n ⟨s, s, s⟩
  let folded := if 48 < n then r.2.2.fold else s
  (le64 B (n - 16), le64 B (n - 8), segmentLoop B s1 r.2.1 r.1 r.2.1 folded)

/-- `WYHASH64(B, seed, secret[0..3])`, the reference function (R140). -/
def wyhash64 (B : List Byte) (seed : Word) (secret : Schedule) : Word :=
  let n := B.length
  let s := seed ^^^ secret.c0
  if n ≤ 16 then
    finish (shortAB B n).1 (shortAB B n).2 s (BitVec.ofNat 64 n) secret.c1
  else
    let r := longABS B s secret.c1 secret.c2 secret.c3
    finish r.1 r.2.1 r.2.2 (BitVec.ofNat 64 n) secret.c1

end Sys2Proof.Machine
end

