-- ==== Sys2Proof/Machine/Ops.lean ====
section
/-! DEFINITION. The named operations over the buffer and the registers: byte and word accesses (spec
20_memory rules R52, R53), the register index map (10_state rule R33), responding (30_encoding rule R72),
taking a fault (60_exceptions rule R181) and reset (10_state rule R46). There is no return from a fault:
R185, "There is no return instruction because there is no handler to return from"; the record is cleared
by `toReset` only. -/

namespace Sys2Proof.Machine

/-- The number of buffer addresses that exist: `0 .. 55` (R27, R50). -/
def bufSize : Nat := 56

/-- The canonical form of the buffer: addresses strictly rising, all of them addresses that exist. -/
def Memory.wf : Memory → Bool
  | [] => true
  | [c] => decide (c.1 < bufSize)
  | c :: d :: m => decide (c.1 < d.1) && Memory.wf (d :: m)

/-- What the buffer lists at an address; an unlisted byte has no value (log entry 5). -/
def Memory.read : Memory → Nat → Option Byte
  | [], _ => none
  | c :: m, a => if c.1 = a then some c.2 else Memory.read m a

/-- `BUF[a] <- b`, keeping the addresses strictly rising. -/
def Memory.write : Memory → Nat → Byte → Memory
  | [], a, b => [(a, b)]
  | c :: m, a, b =>
    if a < c.1 then (a, b) :: c :: m
    else if a = c.1 then (a, b) :: m
    else c :: Memory.write m a b

/-- The bytes written from an address up, the first lowest. -/
def Memory.writeList : Memory → Nat → List Byte → Memory
  | m, _, [] => m
  | m, a, b :: bs => Memory.writeList (Memory.write m a b) (a + 1) bs

/-- One byte of the buffer: an address that does not exist and a byte without a value are faults of the
model (log entries 5 and 6). -/
def readByte (m : Memory) (a : Nat) : Except Fault Byte :=
  if a < bufSize then
    match m.read a with
    | some b => .ok b
    | none => .error (.unwrittenByte a)
  else .error (.bufferBounds a)

/-- `BUF[a .. a+n-1]` as a byte sequence. -/
def readBytes (m : Memory) : Nat → Nat → Except Fault (List Byte)
  | _, 0 => .ok []
  | a, n + 1 =>
    match readByte m a with
    | .error f => .error f
    | .ok b =>
      match readBytes m (a + 1) n with
      | .error f => .error f
      | .ok bs => .ok (b :: bs)

/-- `MemRead(addr, n)` for `n = 1, 4, 8`, little-endian, zero extended (R52). -/
def memRead (m : Memory) (addr n : Nat) : Except Fault Word :=
  match readBytes m addr n with
  | .error f => .error f
  | .ok bs => .ok (BitVec.ofNat 64 (leNat bs))

/-- The bytes stored from `addr` up, all of them or none: an address that does not exist is a fault of the
model (log entry 6). -/
def storeBytes (m : Memory) (addr : Nat) (bs : List Byte) : Except Fault Memory :=
  if addr + bs.length ≤ bufSize then .ok (m.writeList addr bs)
  else .error (.bufferBounds (addr + bs.length - 1))

/-- `MemWrite(addr, n, v)` for `n = 0 .. 8`: the least significant byte goes to the lowest address (R53). -/
def memWrite (m : Memory) (addr n : Nat) (v : Word) : Except Fault Memory :=
  storeBytes m addr (valueBytes n v)

/-- The response word `{rc, data}` (R72). -/
def response (rc : Byte) (d : Word) : ResponseWord := rc ++ d

/-- `respond(rc, d)`: the command retires with this response (R9, R72). -/
def respond (rc : Byte) (d : Word) (s : State) : State :=
  { s with responses := s.responses ++ [response rc d] }

/-- The code `OK` of a response (R72). -/
def rcOk : Byte := 0x00

/-- `raise <Fault c>` by a command whose `op` field is `op` (60_exceptions rule R181): nothing changes but
the fault record, and the response carries the code. The `rc` of the response is the fault's code, zero
extended (R72, R180). -/
def raiseFault (c : FaultCause) (op : Byte) (s : State) : State :=
  respond (c.code.setWidth 8) 0 { s with status := s.status.record c op }

/-- `x[idx]`, zero extended; none where the index names no register (R33). Every read of a register goes
through here. -/
def readReg (s : State) (idx : Byte) : Option Word :=
  match idx.toNat with
  | 0x00 => some s.status.word
  | 0x01 => some s.cfgSeed
  | 0x02 => some s.cfgSecret0
  | 0x03 => some s.cfgSecret1
  | 0x04 => some s.cfgSecret2
  | 0x05 => some s.cfgSecret3
  | 0x06 => some s.res
  | 0x07 => some s.cnt
  | 0x08 => some (s.off.setWidth 64)
  | 0x09 => some s.see0
  | 0x0A => some s.see1
  | 0x0B => some s.see2
  | 0x0C => some s.is
  | 0x0D => some s.s1
  | 0x0E => some s.s2
  | 0x0F => some s.s3
  | _ => none

/-- `x[idx] <- v`; none where the index names a read-only register or no register (R33, 41_config rule
R101). Every write by index goes through here. -/
def writeReg (s : State) (idx : Byte) (v : Word) : Option State :=
  match idx.toNat with
  | 0x01 => some { s with cfgSeed := v }
  | 0x02 => some { s with cfgSecret0 := v }
  | 0x03 => some { s with cfgSecret1 := v }
  | 0x04 => some { s with cfgSecret2 := v }
  | 0x05 => some { s with cfgSecret3 := v }
  | _ => none

/-- The four secret registers written together (41_config rule R103, 44_secret_gen rule R165). -/
def setSecrets (s : State) (sec : Schedule) : State :=
  { s with cfgSecret0 := sec.c0, cfgSecret1 := sec.c1, cfgSecret2 := sec.c2, cfgSecret3 := sec.c3 }

/-- The schedule in the four secret registers (10_state rule R32). -/
def secrets (s : State) : Schedule :=
  { c0 := s.cfgSecret0, c1 := s.cfgSecret1, c2 := s.cfgSecret2, c3 := s.cfgSecret3 }

/-- The three accumulators written together (42_put rule R122, 41_config rule R104). -/
def setAcc (s : State) (e : Acc) : State := { s with see0 := e.e0, see1 := e.e1, see2 := e.e2 }

/-- The three accumulators. -/
def accs (s : State) : Acc := { e0 := s.see0, e1 := s.see1, e2 := s.see2 }

/-- Every register to its reset value (10_state rule R46), as hardware reset and `RST` do (41_config rule
R100, 70_reset_and_hazards rule R200). `RES` becomes a free value not drawn before (log entry 4). The
host's lists are no state of the core and stay (log entry 8). -/
def toReset (s : State) : State :=
  { State.reset with
    res := Config.freeRes s.freeIdx
    freeIdx := s.freeIdx + 1
    inbox := s.inbox
    responses := s.responses }

end Sys2Proof.Machine
end

