-- ==== Sys2Proof/Machine/Configure.lean ====
section
/-! DEFINITION. The configuration and system commands `RST`, `WRREG`, `RDREG`, `DEFSEC`, `INIT` (spec
41_config rules R100 to R104). -/

namespace Sys2Proof.Machine

/-- `RST` (R100): every register to its reset value, the stream empty. -/
def execRst (s : State) : Host.Outcome State Fault Refusal :=
  .next (respond rcOk 0 (toReset s))

/-- `WRREG idx, v` (R101). The engine registers and the flags are not touched. -/
def execWrreg (idx : Byte) (v : Word) (s : State) : Host.Outcome State Fault Refusal :=
  match writeReg s idx v with
  | some t => .next (respond rcOk 0 t)
  | none => .next (raiseFault .illegalOperand (opcodeBits .wrreg) s)

/-- `RDREG idx` (R102). No register has a read side effect. -/
def execRdreg (idx : Byte) (s : State) : Host.Outcome State Fault Refusal :=
  match readReg s idx with
  | some v => .next (respond rcOk v s)
  | none => .next (raiseFault .illegalOperand (opcodeBits .rdreg) s)

/-- `DEFSEC` (R103): copies constants, never runs the generator. -/
def execDefsec (s : State) : Host.Outcome State Fault Refusal :=
  .next (respond rcOk 0 (setSecrets s Config.defaultSecret))

/-- The engine of a fresh computation bound to the configuration registers (R104). `BUF` and `RES` are not
written. -/
def bindEngine (s : State) : State :=
  let seed := s.cfgSeed ^^^ s.cfgSecret0
  { setAcc s ⟨seed, seed, seed⟩ with
    is := seed
    s1 := s.cfgSecret1
    s2 := s.cfgSecret2
    s3 := s.cfgSecret3
    cnt := 0
    off := 0
    stream := []
    status := s.status.setResv false }

/-- `INIT` (R104). -/
def execInit (s : State) : Host.Outcome State Fault Refusal :=
  .next (respond rcOk 0 (bindEngine s))

end Sys2Proof.Machine
end

