-- ==== Sys2Proof/Machine/Finalize.lean ====
section
/-! DEFINITION. The finalizer `FIN` (spec 43_finalize rules R141 to R147). It reads the computation and
writes only `RES` and `STATUS.RESV` (R146). -/

namespace Sys2Proof.Machine

/-- The segment loop of R144: `while i + 16 < OFF`. Each round adds 16 to `i`, so `fuel = OFF` rounds are
enough. -/
def finSegments (m : Memory) (s1 : Word) (off : Nat) : Nat → Nat → Word → Except Fault Word
  | 0, _, s => .ok s
  | fuel + 1, i, s =>
    if i + 16 < off then do
      let w0 ← memRead m i 8
      let w1 ← memRead m (i + 8) 8
      finSegments m s1 off fuel (i + 16) (segment s1 w0 w1 s)
    else .ok s

/-- The last 16 stream bytes (R144): in place when `OFF >= 16`, else the bytes the last absorbed block left
in `BUF[32+OFF .. 47]`, then the buffered ones. -/
def finTail (m : Memory) (off : Nat) : Except Fault (List Byte) :=
  if 16 ≤ off then readBytes m (off - 16) 16
  else do
    let old ← readBytes m (32 + off) (16 - off)
    let new ← readBytes m 0 off
    return old ++ new

/-- `LONG_ABS()` (R144): `a`, `b` and the folded seed, which is a temporary and never written back. -/
def finLong (s : State) : Except Fault (Word × Word × Word) := do
  let folded := if 48 < s.cnt.toNat then (accs s).fold else s.see0
  let sd ← finSegments s.buf s.s1 s.off.toNat s.off.toNat 0 folded
  let t ← finTail s.buf s.off.toNat
  return (le64 t 0, le64 t 8, sd)

/-- The hash of the stream (R141); the class is chosen by `CNT`, not by `OFF`. DEDUCED: the held bytes are read as
one sequence (log entry 10). -/
def finHash (s : State) : Except Fault Word :=
  if s.cnt.toNat ≤ 16 then do
    let t ← readBytes s.buf 0 s.off.toNat
    return finish (shortAB t s.off.toNat).1 (shortAB t s.off.toNat).2 s.see0 s.cnt s.s1
  else do
    let r ← finLong s
    return finish r.1 r.2.1 r.2.2 s.cnt s.s1

/-- `FIN` (R141). -/
def execFin (s : State) : Host.Outcome State Fault Refusal :=
  match finHash s with
  | .ok h => .next (respond rcOk h { s with res := h, status := s.status.setResv true })
  | .error f => .fault f

end Sys2Proof.Machine
end

