-- ==== Sys2Proof/Machine/SecretGen.lean ====
section
/-! DEFINITION. The generator of secret schedules (spec 44_secret_gen rules R160 to R166), for any
parameters and any retry cap; the machine uses those of Config. -/

namespace Sys2Proof.Machine

/-- The number of 1 bits among the low `n` bits. -/
def onesBelow (x : Word) : Nat → Nat
  | 0 => 0
  | n + 1 => onesBelow x n + (x.getLsbD n).toNat

/-- `popcount(x)` (00_scope rule R8). -/
def popcount (x : Word) : Nat := onesBelow x 64

/-- The running seed after one step of `NEXT` (R163). -/
def nextSeed (P : GenParams) (r : Word) : Word := r + P.inc

/-- The draw `x` of a running seed that has already been advanced (R163). -/
def draw (P : GenParams) (r : Word) : Word := mix r (r ^^^ P.xorc)

/-- The table entry a draw selects: reduced modulo the size of the table (R164). DEDUCED: a table without
entries selects the byte 0, so that the generator is total (log entry 14). -/
def laneByte (P : GenParams) (x : Word) : Byte := P.table.getD (x.toNat % P.table.length) 0

/-- The lanes of one candidate still to be filled, lowest first: `lanes` left, the next being lane `j`
(the loop of R164). -/
def candidateLoop (P : GenParams) : Nat → Nat → Word → Word → Word × Word
  | 0, _, r, c => (r, c)
  | lanes + 1, j, r, c =>
    candidateLoop P lanes (j + 1) (nextSeed P r)
      (c ||| ((laneByte P (draw P (nextSeed P r))).setWidth 64 <<< (8 * j)))

/-- `CANDIDATE(r)`: the new running seed and the candidate (R164). -/
def candidate (P : GenParams) (r : Word) : Word × Word := candidateLoop P 8 0 r 0

/-- The acceptance criterion: odd, and at Hamming distance 32 from every constant accepted before (R165). -/
def accepts (prev : List Word) (c : Word) : Bool :=
  c.getLsbD 0 && prev.all (fun p => popcount (c ^^^ p) == 32)

/-- One slot: candidates are tried until one is accepted; none when `tries` have been rejected (R165). The
running seed is never rewound. -/
def genSlot (P : GenParams) (prev : List Word) : Nat → Word → Option (Word × Word)
  | 0, _ => none
  | tries + 1, r =>
    let rc := candidate P r
    if accepts prev rc.2 then some rc else genSlot P prev tries rc.1

/-- The schedule `GENSEC` generates from a secret seed, with at most `cap` candidates per slot; none when a
slot is exhausted (R165). -/
def generate (P : GenParams) (cap : Nat) (seedS : Word) : Option Schedule :=
  match genSlot P [] cap seedS with
  | none => none
  | some x0 =>
    match genSlot P [x0.2] cap x0.1 with
    | none => none
    | some x1 =>
      match genSlot P [x0.2, x1.2] cap x1.1 with
      | none => none
      | some x2 =>
        match genSlot P [x0.2, x1.2, x2.2] cap x2.1 with
        | none => none
        | some x3 => some { c0 := x0.2, c1 := x1.2, c2 := x2.2, c3 := x3.2 }

/-- The two invariants of a generated schedule: every constant odd, every pair at Hamming distance exactly 32
(R160). -/
def scheduleValid (x : Schedule) : Bool :=
  x.c0.getLsbD 0 && x.c1.getLsbD 0 && x.c2.getLsbD 0 && x.c3.getLsbD 0 &&
  popcount (x.c0 ^^^ x.c1) == 32 && popcount (x.c0 ^^^ x.c2) == 32 && popcount (x.c0 ^^^ x.c3) == 32 &&
  popcount (x.c1 ^^^ x.c2) == 32 && popcount (x.c1 ^^^ x.c3) == 32 && popcount (x.c2 ^^^ x.c3) == 32

end Sys2Proof.Machine
end

