-- ==== Sys2Proof/Machine/Generate.lean ====
section
/-! DEFINITION. The command `GENSEC` (spec 44_secret_gen rule R165). -/

namespace Sys2Proof.Machine

/-- `GENSEC seedS` under given parameters and retry cap: the secret registers are written only after all
four slots have been accepted; an exhausted slot takes `GEN_EXHAUSTED` (R165, 60_exceptions R182). -/
def gensecWith (P : GenParams) (cap : Nat) (seedS : Word) (s : State) : State :=
  match generate P cap seedS with
  | some sec => respond rcOk 0 (setSecrets s sec)
  | none => raiseFault .genExhausted (opcodeBits .gensec) s

/-- `GENSEC seedS` (R165) under the parameters of this hardware. -/
def execGensec (seedS : Word) (s : State) : Host.Outcome State Fault Refusal :=
  .next (gensecWith Config.genParams Config.ssRetryCap seedS s)

end Sys2Proof.Machine
end

