-- ==== Sys2Proof/Machine/Put.lean ====
section
/-! DEFINITION. The put commands and block absorption (spec 42_put rules R120 to R129). -/

namespace Sys2Proof.Machine

/-- `ABSORB()` (R122): the three accumulators updated by the six words of `BUF[0..47]`. -/
def absorb (m : Memory) (s1 s2 s3 : Word) (e : Acc) : Except Fault Acc := do
  let w0 ← memRead m 0 8
  let w1 ← memRead m 8 8
  let w2 ← memRead m 16 8
  let w3 ← memRead m 24 8
  let w4 ← memRead m 32 8
  let w5 ← memRead m 40 8
  return absorbWords s1 s2 s3 w0 w1 w2 w3 w4 w5 e

/-- `SHIFT()` (R123) with `off` the fill offset before it, above 48: `BUF[k] <- BUF[48+k]` for `k = 0 ..
off-49`, all at once. The other bytes of the absorbed block stay. -/
def shift (m : Memory) (off : Nat) : Except Fault Memory := do
  let bs ← readBytes m 48 (off - 48)
  storeBytes m 0 bs

/-- The end of R120 with `off` the fill offset after the append: a block is absorbed when it exceeds 48. -/
def settleBlock (off : Nat) (s : State) : Except Fault State :=
  if 48 < off then do
    let e ← absorb s.buf s.s1 s.s2 s.s3 (accs s)
    let m ← shift s.buf off
    return { setAcc s e with buf := m, off := BitVec.ofNat 6 (off - 48) }
  else .ok { s with off := BitVec.ofNat 6 off }

/-- The part of R120 after its checks: `n` bytes of `v` are appended. -/
def append (n : Nat) (v : Word) (s : State) : Except Fault State := do
  let m ← memWrite s.buf s.off.toNat n v
  settleBlock (s.off.toNat + n)
    { s with
      buf := m
      stream := s.stream ++ valueBytes n v
      cnt := s.cnt + BitVec.ofNat 64 n
      status := s.status.setResv false }

/-- `PUT(n, v)` for the command with opcode `op` (R120), `n = 0 .. 8`. The count is checked before any byte
is written (R121). -/
def put (op : Opcode) (n : Nat) (v : Word) (s : State) : Host.Outcome State Fault Refusal :=
  if n = 0 then .next (respond rcOk 0 s)
  else if 2 ^ 64 ≤ s.cnt.toNat + n then .next (raiseFault .countOverflow (opcodeBits op) s)
  else
    match append n v s with
    | .ok t => .next (respond rcOk 0 t)
    | .error f => .fault f

/-- `PUT8 v` (R124). -/
def execPut8 (v : BitVec 8) (s : State) : Host.Outcome State Fault Refusal :=
  put .put8 1 (v.setWidth 64) s

/-- `PUT16 v` (R125). -/
def execPut16 (v : BitVec 16) (s : State) : Host.Outcome State Fault Refusal :=
  put .put16 2 (v.setWidth 64) s

/-- `PUT32 v` (R126). -/
def execPut32 (v : BitVec 32) (s : State) : Host.Outcome State Fault Refusal :=
  put .put32 4 (v.setWidth 64) s

/-- `PUT64 v` (R128). -/
def execPut64 (v : BitVec 64) (s : State) : Host.Outcome State Fault Refusal :=
  put .put64 8 v s

/-- `PUTC c` (R127): the same state transformer as `PUT16`. -/
def execPutc (c : BitVec 16) (s : State) : Host.Outcome State Fault Refusal :=
  put .putc 2 (c.setWidth 64) s

/-- `PUTB n, v` (R129): the operand is checked first (60_exceptions rule R184). -/
def execPutb (n : Byte) (v : Word) (s : State) : Host.Outcome State Fault Refusal :=
  if 8 < n.toNat then .next (raiseFault .illegalOperand (opcodeBits .putb) s)
  else put .putb n.toNat v s

end Sys2Proof.Machine
end

