-- ==== Sys2Proof/Machine/Dispatch.lean ====
section
/-! DEFINITION. The dispatch: one arm per command. -/

namespace Sys2Proof.Machine

def exec (i : Instr) (s : State) : Host.Outcome State Fault Refusal :=
  match i with
  | .rst => Sys2Proof.Machine.execRst s
  | .wrreg idx v => Sys2Proof.Machine.execWrreg idx v s
  | .rdreg idx => Sys2Proof.Machine.execRdreg idx s
  | .defsec => Sys2Proof.Machine.execDefsec s
  | .gensec seedS => Sys2Proof.Machine.execGensec seedS s
  | .init => Sys2Proof.Machine.execInit s
  | .put8 v => Sys2Proof.Machine.execPut8 v s
  | .put16 v => Sys2Proof.Machine.execPut16 v s
  | .put32 v => Sys2Proof.Machine.execPut32 v s
  | .put64 v => Sys2Proof.Machine.execPut64 v s
  | .putc c => Sys2Proof.Machine.execPutc c s
  | .putb n v => Sys2Proof.Machine.execPutb n v s
  | .fin => Sys2Proof.Machine.execFin s

end Sys2Proof.Machine
end

