-- ==== Sys2Proof/Machine/Port.lean ====
section
/-! DEFINITION. The command port (spec 00_scope rule R12, 10_state rule R30): which action of the host is
next. The core has no program counter and fetches nothing from a memory; the host presents one command at
a time (log entry 7). -/

namespace Sys2Proof.Machine

/-- The host's next action and the state without it; none when the host presents nothing. -/
def nextAct (s : State) : Option (HostAct × State) :=
  match s.inbox with
  | [] => none
  | a :: rest => some (a, { s with inbox := rest })

/-- The state in which the host presents `w` next. -/
def presentNext (w : CommandWord) (s : State) : State :=
  { s with inbox := .command w :: s.inbox }

end Sys2Proof.Machine
end

