-- ==== Sys2Proof/Machine/Retire.lean ====
section
/-! DEFINITION. Retiring one action of the host: a command word (spec 30_encoding rules R71, R76) or the
hardware reset (70_reset_and_hazards rule R200). -/

namespace Sys2Proof.Machine

/-- One command word: the command it decodes to, or `ILLEGAL_OPCODE` with its `op` field recorded (R76). -/
def retireWord (w : CommandWord) (s : State) : Host.Outcome State Fault Refusal :=
  match decode w with
  | .ok i => exec i s
  | .error _ => .next (raiseFault .illegalOpcode (opField w) s)

/-- One action of the host. The hardware reset returns no response (log entry 8). -/
def retireAct (a : HostAct) (s : State) : Host.Outcome State Fault Refusal :=
  match a with
  | .command w => retireWord w s
  | .reset => .next (toReset s)

/-- The machine does what the host presents next; with nothing presented it holds its state (60_exceptions
rule R191: "between commands it holds its state unchanged for any length of time"). -/
def stepHost (s : State) : Host.Outcome State Fault Refusal :=
  match nextAct s with
  | none => .next s
  | some (a, t) => retireAct a t

/-- The state in which the host's next action is the command word of an opcode-table row (log entry 7). -/
def withTableWord (s : State) (nbits w : Nat) : State := presentNext (tableWord nbits w) s

end Sys2Proof.Machine
end

