-- ==== Sys2Proof/Machine/Pseudo.lean ====
section
/-! DEFINITION. The pseudo-instructions and their expansions into command words (spec 30_encoding rules R81
to R83). -/

namespace Sys2Proof.Machine

/-- The word whose bytes are the given ones (at most eight), the first in bits 7:0 (R83). -/
def packBytes (bs : List Byte) : Word := BitVec.ofNat 64 (leNat bs)

/-- The `PUTB` commands of a byte range: eight bytes each while eight are left, then one with the rest (R83).
Each takes at least one byte, so `fuel = bs.length` commands are enough. -/
def putBytesLoop : Nat → List Byte → List CommandWord
  | 0, _ => []
  | fuel + 1, bs =>
    if bs = [] then []
    else
      encode (.putb (BitVec.ofNat 8 (min 8 bs.length)) (packBytes (bs.take 8)))
        :: putBytesLoop fuel (bs.drop 8)

/-- `PUTBYTES b0 ... b(n-1)` (R83). -/
def putBytes (bs : List Byte) : List CommandWord := putBytesLoop bs.length bs

/-- `HASH64 seed, b0 ... b(n-1)` (R82). -/
def hash64Words (seed : Word) (bs : List Byte) : List CommandWord :=
  [encode (.wrreg 0x01 seed), encode .init] ++ putBytes bs ++ [encode .fin]

/-- The expansion of a pseudo-instruction (R81 to R83). The signed puts place the sign-extended value in
`data`, the unsigned ones the zero-extended (R81). -/
def expand : PseudoInstr → List CommandWord
  | .ldseed v => [encode (.wrreg 0x01 v)]
  | .ldsec k v => [encode (.wrreg (BitVec.ofNat 8 (2 + k.val)) v)]
  | .puti8 v => [commandWord (opcodeBits .put8) 0 (v.signExtend 64)]
  | .puti16 v => [commandWord (opcodeBits .put16) 0 (v.signExtend 64)]
  | .puti32 v => [commandWord (opcodeBits .put32) 0 (v.signExtend 64)]
  | .puti64 v => [commandWord (opcodeBits .put64) 0 (v.signExtend 64)]
  | .putu8 v => [commandWord (opcodeBits .put8) 0 (v.setWidth 64)]
  | .putu16 v => [commandWord (opcodeBits .put16) 0 (v.setWidth 64)]
  | .putu32 v => [commandWord (opcodeBits .put32) 0 (v.setWidth 64)]
  | .putu64 v => [commandWord (opcodeBits .put64) 0 (v.setWidth 64)]
  | .rdres => [encode (.rdreg 0x06)]
  | .rdst => [encode (.rdreg 0x00)]
  | .hash64 seed bs => hash64Words seed bs
  | .hash64s seed secretSeed bs => encode (.gensec secretSeed) :: hash64Words seed bs
  | .putbytes bs => putBytes bs
  | .putchars cs => cs.map (fun c => encode (.putc c))

end Sys2Proof.Machine
end

