-- ==== Sys2Proof/Machine/Assembler.lean ====
section
/-! DEFINITION. The assembler's line syntax (spec 30_encoding rule R80) and, in the same syntax, the
pseudo-instructions of rules R81 to R83: one line of text gives the command words it stands for. What R80
leaves open about the text is said in log entry 11. -/

namespace Sys2Proof.Machine

/-- Space and tab separate the words of a line. -/
def isBlank (c : Char) : Bool := c == ' ' || c == '\t'

/-- The text without blanks at either end. -/
def trimBlanks (cs : List Char) : List Char :=
  ((cs.dropWhile isBlank).reverse.dropWhile isBlank).reverse

/-- The pieces of a text between the separators. -/
def pieces (sep : Char → Bool) : List Char → List (List Char)
  | [] => [[]]
  | c :: cs =>
    if sep c then [] :: pieces sep cs
    else
      match pieces sep cs with
      | [] => [[c]]
      | w :: ws => (c :: w) :: ws

/-- The value of a digit in a base up to sixteen. -/
def digitValue (base : Nat) (c : Char) : Option Nat :=
  let v :=
    if '0'.toNat ≤ c.toNat ∧ c.toNat ≤ '9'.toNat then c.toNat - '0'.toNat
    else if 'a'.toNat ≤ c.toNat ∧ c.toNat ≤ 'f'.toNat then c.toNat - 'a'.toNat + 10
    else if 'A'.toNat ≤ c.toNat ∧ c.toNat ≤ 'F'.toNat then c.toNat - 'A'.toNat + 10
    else base
  if v < base then some v else none

/-- The number a text of digits stands for, read after those that gave `acc`. -/
def digitsValue (base : Nat) : Nat → List Char → Option Nat
  | acc, [] => some acc
  | acc, c :: cs =>
    match digitValue base c with
    | some v => digitsValue base (acc * base + v) cs
    | none => none

/-- "Numbers are decimal or `0x` hexadecimal" (R80). -/
def parseNumber : List Char → Option Nat
  | [] => none
  | '0' :: 'x' :: [] => none
  | '0' :: 'x' :: ds => digitsValue 16 0 ds
  | ds => digitsValue 10 0 ds

/-- A number that fits the field it is written to. -/
def parseField (width : Nat) (cs : List Char) : Option (BitVec width) :=
  match parseNumber cs with
  | some v => if v < 2 ^ width then some (BitVec.ofNat width v) else none
  | none => none

/-- A signed number of the given width (R81). -/
def parseSigned (width : Nat) : List Char → Option (BitVec width)
  | '-' :: ds =>
    match parseNumber ds with
    | some v => if v ≤ 2 ^ (width - 1) then some (BitVec.ofInt width (-(v : Int))) else none
    | none => none
  | ds =>
    match parseNumber ds with
    | some v => if v < 2 ^ (width - 1) then some (BitVec.ofNat width v) else none
    | none => none

/-- The register names of 10_state rule R33, by index. -/
def registerNames : List String :=
  ["STATUS", "CFG_SEED", "CFG_SECRET0", "CFG_SECRET1", "CFG_SECRET2", "CFG_SECRET3", "RES", "CNT"] ++
  ["OFF", "SEE0", "SEE1", "SEE2", "IS", "S1", "S2", "S3"]

/-- The `arg` operand: a number, or for `RDREG` and `WRREG` a register name in its place (R80). -/
def parseArg (o : Opcode) (cs : List Char) : Option Byte :=
  let i := registerNames.idxOf (String.ofList cs)
  if (o = .rdreg ∨ o = .wrreg) ∧ i < registerNames.length then some (BitVec.ofNat 8 i)
  else parseField 8 cs

/-- The mnemonics of R73. -/
def opcodeName : Opcode → String
  | .rst => "RST"
  | .wrreg => "WRREG"
  | .rdreg => "RDREG"
  | .defsec => "DEFSEC"
  | .gensec => "GENSEC"
  | .init => "INIT"
  | .put8 => "PUT8"
  | .put16 => "PUT16"
  | .put32 => "PUT32"
  | .put64 => "PUT64"
  | .putc => "PUTC"
  | .putb => "PUTB"
  | .fin => "FIN"

/-- Whether a command is written with its `arg` operand (R73). -/
def writesArg : Opcode → Bool
  | .wrreg | .rdreg | .putb => true
  | .rst | .defsec | .gensec | .init | .put8 | .put16 | .put32 | .put64 | .putc | .fin => false

/-- Whether a command is written with its `data` operand (R73). -/
def writesData : Opcode → Bool
  | .wrreg | .gensec | .put8 | .put16 | .put32 | .put64 | .putc | .putb => true
  | .rst | .rdreg | .defsec | .init | .fin => false

/-- `MNEMONIC`, `MNEMONIC data`, `MNEMONIC arg` or `MNEMONIC arg, data`; fields not written are 0 (R75, R80).
DESIGN CHOICE: a `data` operand wider than the put uses is emitted whole, as R81 and V3 place one, not cleared above
`8n` as U8 has an assembler do (log entry 15). -/
def assembleCommand (o : Opcode) (ops : List (List Char)) : Option CommandWord :=
  match writesArg o, writesData o, ops with
  | false, false, [] => some (commandWord (opcodeBits o) 0 0)
  | false, true, [d] =>
    match parseField 64 d with
    | some v => some (commandWord (opcodeBits o) 0 v)
    | none => none
  | true, false, [a] =>
    match parseArg o a with
    | some x => some (commandWord (opcodeBits o) x 0)
    | none => none
  | true, true, [a, d] =>
    match parseArg o a, parseField 64 d with
    | some x, some v => some (commandWord (opcodeBits o) x v)
    | _, _ => none
  | _, _, _ => none

/-- A list of numbers of one width separated by blanks (R82, R83). -/
def parseMany (width : Nat) (cs : List Char) : Option (List (BitVec width)) :=
  ((pieces isBlank cs).filter (fun w => decide (w ≠ []))).mapM (parseField width)

/-- A pseudo-instruction by its name and operands (R81 to R83). -/
def parsePseudo (name : String) (ops : List (List Char)) : Option PseudoInstr :=
  match name, ops with
  | "LDSEED", [v] => (parseField 64 v).map .ldseed
  | "LDSEC", [k, v] =>
    match parseField 2 k, parseField 64 v with
    | some i, some x => some (.ldsec i.toFin x)
    | _, _ => none
  | "PUTI8", [v] => (parseSigned 8 v).map .puti8
  | "PUTI16", [v] => (parseSigned 16 v).map .puti16
  | "PUTI32", [v] => (parseSigned 32 v).map .puti32
  | "PUTI64", [v] => (parseSigned 64 v).map .puti64
  | "PUTU8", [v] => (parseField 8 v).map .putu8
  | "PUTU16", [v] => (parseField 16 v).map .putu16
  | "PUTU32", [v] => (parseField 32 v).map .putu32
  | "PUTU64", [v] => (parseField 64 v).map .putu64
  | "RDRES", [] => some .rdres
  | "RDST", [] => some .rdst
  | "HASH64", [s] => (parseField 64 s).map (fun x => .hash64 x [])
  | "HASH64", [s, b] =>
    match parseField 64 s, parseMany 8 b with
    | some x, some bs => some (.hash64 x bs)
    | _, _ => none
  | "HASH64S", [s, k] =>
    match parseField 64 s, parseField 64 k with
    | some x, some y => some (.hash64s x y [])
    | _, _ => none
  | "HASH64S", [s, k, b] =>
    match parseField 64 s, parseField 64 k, parseMany 8 b with
    | some x, some y, some bs => some (.hash64s x y bs)
    | _, _, _ => none
  | "PUTBYTES", [] => some (.putbytes [])
  | "PUTBYTES", [b] => (parseMany 8 b).map .putbytes
  | "PUTCHARS", [] => some (.putchars [])
  | "PUTCHARS", [c] => (parseMany 16 c).map .putchars
  | _, _ => none

/-- The command words of a line with the given first word and operand text. -/
def assembleParts (name : String) (rest : List Char) : Option (List CommandWord) :=
  let ops := if rest = [] then [] else (pieces (· == ',') rest).map trimBlanks
  match allOpcodes.find? (fun o => opcodeName o == name) with
  | some o => (assembleCommand o ops).map (fun w => [w])
  | none => (parsePseudo name ops).map expand

/-- One line of assembler text: `#` starts a comment, one command per line (R80). An empty line gives no
command; a line that is not assembler text gives none. -/
def assembleLine (line : String) : Option (List CommandWord) :=
  let body := trimBlanks (line.toList.takeWhile (fun c => c != '#'))
  if body = [] then some []
  else
    assembleParts (String.ofList (body.takeWhile (fun c => !isBlank c)))
      (trimBlanks (body.dropWhile (fun c => !isBlank c)))

end Sys2Proof.Machine
end

