-- ==== Sys2Proof/Safety.lean ====
section
/-! DEFINITION. What claims are stated in: the invariants between commands (spec 10_state section 7, rules
R35, R40 to R44), what a run is, and the bytes a put appends. -/

namespace Sys2Proof.Machine

/-- The fill offset that belongs to a stream length (R41). -/
def fillOf (n : Nat) : Nat := if n ≤ 48 then n else (n - 1) % 48 + 1

/-- The accumulators after the first `nb` blocks of the stream, starting from `e` (R43). -/
def accAfter (s1 s2 s3 : Word) (B : List Byte) : Nat → Acc → Acc
  | 0, e => e
  | nb + 1, e => absorbBlock s1 s2 s3 B (48 * nb) (accAfter s1 s2 s3 B nb e)

/-- The invariants that tie the engine to the stream (R40 to R44). -/
structure StreamInv (s : State) : Prop where
  /-- R40 -/
  count : s.cnt.toNat = s.stream.length
  /-- R41 -/
  fill : s.off.toNat = fillOf s.cnt.toNat
  /-- R42: the first `OFF` buffer bytes are the last `OFF` stream bytes -/
  held : ∀ k, k < s.off.toNat → s.buf.read k = s.stream[s.cnt.toNat - s.off.toNat + k]?
  /-- R44: the bytes above are those of the last absorbed block, once there is one -/
  kept : 48 < s.cnt.toNat → ∀ k, s.off.toNat ≤ k → k < 48 →
    s.buf.read k = s.stream[s.cnt.toNat - s.off.toNat - 48 + k]?
  /-- R43 -/
  absorbed : accs s = accAfter s.s1 s.s2 s.s3 s.stream ((s.cnt.toNat - s.off.toNat) / 48) ⟨s.is, s.is, s.is⟩

/-- The fault record is consistent (R35): nothing is recorded while `FAULT = 0`, and a recorded cause is
one of the four codes. -/
structure RecordInv (st : Status) : Prop where
  quiet : st.fault = false → st.fcause = 0 ∧ st.fop = 0
  coded : st.fault = true → 1 ≤ st.fcause.toNat ∧ st.fcause.toNat ≤ 4

/-- The invariants between commands: the engine and the stream, the canonical form of the buffer, the fault
record. -/
structure Inv (s : State) : Prop where
  engine : StreamInv s
  form : s.buf.wf = true
  record : RecordInv s.status

/-- The schedule and seed bound by the last `INIT`, as a schedule whose first constant is 0 and a seed that
is `IS`: `WYHASH64` depends on the two only through their xor (43_finalize rule R145). -/
def boundSchedule (s : State) : Schedule := ⟨0, s.s1, s.s2, s.s3⟩

/-- What `RESV = 1` promises (R35): `RES` is the hash of the current stream. -/
def ResultCurrent (s : State) : Prop :=
  s.status.resv = true → s.res = wyhash64 s.stream s.is (boundSchedule s)

/-- The commands that append bytes (42_put). -/
def isPut : Instr → Bool
  | .put8 _ | .put16 _ | .put32 _ | .put64 _ | .putc _ | .putb _ _ => true
  | .rst | .wrreg _ _ | .rdreg _ | .defsec | .gensec _ | .init | .fin => false

/-- The bytes a command appends to the stream when it does not fault, in order (42_put R124 to R129): the
low bytes of its operand, least significant first. -/
def bytesOf : Instr → List Byte
  | .put8 v => [v]
  | .put16 v => [v.extractLsb' 0 8, v.extractLsb' 8 8]
  | .put32 v => [v.extractLsb' 0 8, v.extractLsb' 8 8, v.extractLsb' 16 8, v.extractLsb' 24 8]
  | .put64 v =>
    [v.extractLsb' 0 8, v.extractLsb' 8 8, v.extractLsb' 16 8, v.extractLsb' 24 8,
      v.extractLsb' 32 8, v.extractLsb' 40 8, v.extractLsb' 48 8, v.extractLsb' 56 8]
  | .putc c => [c.extractLsb' 0 8, c.extractLsb' 8 8]
  | .putb n v => if n.toNat ≤ 8 then (List.range n.toNat).map (fun k => v.extractLsb' (8 * k) 8) else []
  | .rst | .wrreg _ _ | .rdreg _ | .defsec | .gensec _ | .init | .fin => []

/-- The puts of a command sequence, as the words the host presents. -/
def presented (is : List Instr) : List HostAct := is.map (fun i => .command (encode i))

/-- The bytes a command sequence appends, in command order (00_scope rule R10). -/
def bytesOfAll (is : List Instr) : List Byte := is.flatMap bytesOf

/-- The state in which the host presents the given words next, before anything else. -/
def presenting (ws : List CommandWord) (s : State) : State :=
  { s with inbox := ws.map HostAct.command ++ s.inbox }

/-- The buffer bytes `BUF[0 .. n-1]` hold the sequence `T` (of length `n`). -/
def Holds (m : Memory) (n : Nat) (T : List Byte) : Prop :=
  T.length = n ∧ ∀ k, k < n → m.read k = T[k]?

/-- Two states agree on everything a put or `FIN` can read of the computation (42_put rule R130): the
registers, the held bytes, and the kept bytes once a block has been absorbed. -/
def SameComputation (s t : State) : Prop :=
  s.cnt = t.cnt ∧ s.off = t.off ∧ s.see0 = t.see0 ∧ s.see1 = t.see1 ∧ s.see2 = t.see2 ∧
  (∀ k, k < s.off.toNat → s.buf.read k = t.buf.read k) ∧
  (48 < s.cnt.toNat → ∀ k, k < 48 → s.buf.read k = t.buf.read k)

/-- The number of positions at which two words differ (44_secret_gen rule R160). -/
def hamming (a b : Word) : Nat :=
  ((List.range 64).filter (fun i => a.getLsbD i != b.getLsbD i)).length

end Sys2Proof.Machine
end

