-- ==== Sys2Proof/Certificates/Slice0/Obligations.lean ====
section
/-! DEFINITION. The statements for the provers. Each docstring names the rule of spec/ it formalises. Where a
statement speaks of `inbox`, of `responses`, of `step` or of a run, the host is represented by the model's own two
lists (log entry 7): the actions it has still to present and the responses it has received. -/

open Sys2Proof Sys2Proof.Machine

/-! ## Encoding -/

/-- For every command, with every operand value, decoding its encoding gives it back (30_encoding R70, R71, R73, R74).
For `PUTB` with bits of `v` above `8n` that is the model's choice (log entry 15, DESIGN CHOICE): the model's encoder
emits `v` whole, where R75 has an assembler emit 0. -/
def Obligations.DecodeOfEncode : Prop := ∀ i : Instr, decode (encode i) = .ok i

/-- R71: a word is decoded as the command with opcode `o` exactly when `word and (0xFF << 72) = op << 72`, no
two commands share an opcode, and no bit outside `op` takes part in selecting the command, whatever the operand
values. -/
def Obligations.DecodingIsByOpAlone : Prop :=
  (∀ o o' : Opcode, opcodeBits o = opcodeBits o' → o = o') ∧
  (∀ (w : CommandWord) (o : Opcode),
    (∃ i, decode w = .ok i ∧ opcodeOf i = o) ↔
      w &&& (0xFF#80 <<< 72) = (opcodeBits o).setWidth 80 <<< 72) ∧
  ∀ w w' : CommandWord, w.extractLsb' 72 8 = w'.extractLsb' 72 8 →
    (∃ i i', decode w = .ok i ∧ decode w' = .ok i' ∧ opcodeOf i = opcodeOf i') ∨
    (∃ e, decode w = .error e ∧ decode w' = .error e)

/-- R76, R78: the 243 `op` values that are no opcode. A word with one of them decodes to no command, and
retiring it changes nothing but the fault record and responds `rc = 0x01`. -/
def Obligations.IllegalOpcodeIsRejected : Prop :=
  ∀ (w : CommandWord) (s : State),
    (let op := (w.extractLsb' 72 8).toNat
     op = 0x00 ∨ op = 0x06 ∨ op = 0x07 ∨ (0x09 ≤ op ∧ op ≤ 0x0F) ∨ (0x16 ≤ op ∧ op ≤ 0x1F) ∨ 0x21 ≤ op) →
    decode w = .error (.illegalOpcode (w.extractLsb' 72 8)) ∧
    retireWord w s = .next { s with
      status := if s.status.fault then s.status
        else { s.status with fault := true, fcause := 1, fop := w.extractLsb' 72 8 }
      responses := s.responses ++ [0x01#8 ++ 0#64] }

/-- R78: every word is one of the thirteen commands or an illegal opcode; the thirteen are those of R73. -/
def Obligations.DecoderIsTotal : Prop :=
  ∀ w : CommandWord,
    (∃ i, decode w = .ok i ∧
      (w.extractLsb' 72 8).toNat ∈
        [0x01, 0x02, 0x03, 0x04, 0x05, 0x08, 0x10, 0x11, 0x12, 0x13, 0x14, 0x15, 0x20]) ∨
    (decode w = .error (.illegalOpcode (w.extractLsb' 72 8)) ∧
      (w.extractLsb' 72 8).toNat ∉
        [0x01, 0x02, 0x03, 0x04, 0x05, 0x08, 0x10, 0x11, 0x12, 0x13, 0x14, 0x15, 0x20])

/-- R75, R74: a field R73 marks ignored, and a bit of `data` above a fixed-width put's operand, does not change
what a word decodes to. -/
def Obligations.IgnoredFieldsDoNotMatter : Prop :=
  ∀ (arg arg' : Byte) (data data' : Word),
    (∀ o, o = Opcode.rst ∨ o = .defsec ∨ o = .init ∨ o = .fin →
      decode (commandWord (opcodeBits o) arg data) = decode (commandWord (opcodeBits o) arg' data')) ∧
    decode (commandWord (opcodeBits .rdreg) arg data) = decode (commandWord (opcodeBits .rdreg) arg data') ∧
    (∀ o, o = Opcode.gensec ∨ o = .put64 →
      decode (commandWord (opcodeBits o) arg data) = decode (commandWord (opcodeBits o) arg' data)) ∧
    (data.extractLsb' 0 8 = data'.extractLsb' 0 8 →
      decode (commandWord (opcodeBits .put8) arg data) = decode (commandWord (opcodeBits .put8) arg' data')) ∧
    (∀ o, o = Opcode.put16 ∨ o = .putc → data.extractLsb' 0 16 = data'.extractLsb' 0 16 →
      decode (commandWord (opcodeBits o) arg data) = decode (commandWord (opcodeBits o) arg' data')) ∧
    (data.extractLsb' 0 32 = data'.extractLsb' 0 32 →
      decode (commandWord (opcodeBits .put32) arg data) = decode (commandWord (opcodeBits .put32) arg' data'))

/-- R74 for `PUTB`: the bits of `data` above bit `8n-1` do not change what the command does. -/
def Obligations.PutbIgnoresHighBits : Prop :=
  ∀ (n : Byte) (v v' : Word) (s : State),
    (∀ b, b < 8 * n.toNat → v.getLsbD b = v'.getLsbD b) → exec (.putb n v) s = exec (.putb n v') s

/-- R70: the fields of a word, and the word of its fields. -/
def Obligations.FieldsMakeTheWord : Prop :=
  (∀ (op arg : Byte) (data : Word),
    opField (commandWord op arg data) = op ∧ argField (commandWord op arg data) = arg ∧
    dataField (commandWord op arg data) = data) ∧
  ∀ w : CommandWord, commandWord (opField w) (argField w) (dataField w) = w

/-- Words written out in R80 and in 95_test_vectors V70 decode to what they stand for (sanity). -/
def Obligations.SpecWordsDecode : Prop :=
  decode 0x0201000000000000002A = .ok (.wrreg 0x01 0x2A) ∧
  decode 0x030A0000000000000000 = .ok (.rdreg 0x0A) ∧
  decode 0x050000000000DEADBEEF = .ok (.gensec 0xDEADBEEF) ∧
  decode 0x11FFDEADBEEF00016261 = .ok (.put16 0x6261) ∧
  decode 0x15050000000403020100 = .ok (.putb 5 0x0403020100) ∧
  decode 0x20010000000000000099 = .ok .fin

/-! ## A step -/

/-- A step retires what the host presents next: the decoded command by `exec`, an illegal opcode by its fault,
the hardware reset; with nothing presented the state is held (00_scope R12, 10_state R30, 60_exceptions R191).
Around `exec` the step only takes the word off the host's list (log entry 7). -/
def Obligations.StepRunsTheDecodedCommand : Prop :=
  ∀ (s : State) (w : CommandWord) (rest : List HostAct),
    (∀ i, decode w = .ok i →
      step { s with inbox := .command w :: rest } = exec i { s with inbox := rest }) ∧
    (∀ e, decode w = .error e →
      step { s with inbox := .command w :: rest } =
        .next (raiseFault .illegalOpcode (w.extractLsb' 72 8) { s with inbox := rest })) ∧
    step { s with inbox := .reset :: rest } = .next (toReset { s with inbox := rest }) ∧
    step { s with inbox := [] } = .next { s with inbox := [] }

/-- Every command retires with exactly one response; its data is 0 for every command but `FIN` and `RDREG`,
and for every command that faults (R72). -/
def Obligations.OneResponsePerCommand : Prop :=
  ∀ (w : CommandWord) (s t : State), retireWord w s = .next t →
    ∃ (rc : Byte) (d : Word), t.responses = s.responses ++ [rc ++ d] ∧ rc.toNat ≤ 4 ∧
      (rc ≠ 0 → d = 0) ∧
      ((∀ i, decode w = .ok i → opcodeOf i ≠ .fin ∧ opcodeOf i ≠ .rdreg) → d = 0)

/-- R30, R79: no command changes which command comes next: a step takes the host's next action off its list and
leaves the rest alone. -/
def Obligations.NoCommandChangesWhatComesNext : Prop :=
  ∀ (s t : State) (a : HostAct) (rest : List HostAct),
    step { s with inbox := a :: rest } = .next t → t.inbox = rest

/-! ## Reset and configuration -/

/-- R46: the state after hardware reset. Nothing is said of `RES` and `BUF`, which are unspecified. -/
def Obligations.ResetValues : Prop :=
  let s := State.reset
  s.cfgSeed = 0 ∧
  secrets s = Config.defaultSecret ∧
  s.is = Config.resetSeed ^^^ Config.defaultSecret.c0 ∧ s.is = Config.defaultSecret.c0 ∧
  s.see0 = s.is ∧ s.see1 = s.is ∧ s.see2 = s.is ∧
  s.s1 = Config.defaultSecret.c1 ∧ s.s2 = Config.defaultSecret.c2 ∧ s.s3 = Config.defaultSecret.c3 ∧
  s.cnt = 0 ∧ s.off = 0 ∧
  s.status.resv = false ∧ s.status.fault = false ∧ s.status.fcause = 0 ∧ s.status.fop = 0 ∧
  s.stream = []

/-- R46: "the reset state equals the state after `DEFSEC; WRREG CFG_SEED, 0; INIT` with `STATUS` cleared": from
every state the three commands leave every register but `STATUS` and the unspecified `RES` at its reset value. -/
def Obligations.ResetEqualsDefaultInit : Prop :=
  ∀ s : State, ∃ a b c, exec .defsec s = .next a ∧ exec (.wrreg 0x01 0) a = .next b ∧
    exec .init b = .next c ∧
    { c with
      status := State.reset.status, res := State.reset.res, buf := State.reset.buf
      inbox := [], responses := [], freeIdx := State.reset.freeIdx } = State.reset

/-- R100: `RST` completes in every state, with every register at its reset value of R46, the flags clear, the
stream empty and the response `{OK, 0}`; `RES` and `BUF` are unspecified and nothing is said of them. -/
def Obligations.RstRestoresResetValues : Prop :=
  ∀ s : State, ∃ t, exec .rst s = .next t ∧
    t.cfgSeed = State.reset.cfgSeed ∧ secrets t = secrets State.reset ∧
    t.is = State.reset.is ∧ accs t = accs State.reset ∧
    t.s1 = State.reset.s1 ∧ t.s2 = State.reset.s2 ∧ t.s3 = State.reset.s3 ∧
    t.cnt = 0 ∧ t.off = 0 ∧ t.status = ⟨false, false, 0, 0⟩ ∧ t.stream = [] ∧
    t.inbox = s.inbox ∧ t.responses = s.responses ++ [0x00#8 ++ 0#64]

/-- R200: the hardware reset and `RST` leave the same core; they differ in the response alone. The model's choices
in it: that the reset returns no response (log entry 8), that `RES`, which R34 and R46 leave unspecified after both, is
the same free value (log entry 4: one function of free values and one counter `freeIdx`), and that `BUF`, unspecified
too, lists nothing after both (log entry 5). -/
def Obligations.HardwareResetEqualsRst : Prop :=
  ∀ (s : State) (rest : List HostAct), ∃ t u,
    step { s with inbox := .reset :: rest } = .next t ∧
    exec .rst { s with inbox := rest } = .next u ∧
    { u with responses := t.responses } = t ∧ t.responses = s.responses

/-- R101: `WRREG` of a configuration register completes, writes it and nothing else; with any other index it raises
`ILLEGAL_OPERAND` and nothing is written. -/
def Obligations.WrregWritesOneRegister : Prop :=
  ∀ (idx : Byte) (v : Word) (s : State),
    (1 ≤ idx.toNat ∧ idx.toNat ≤ 5 → exec (.wrreg idx v) s = .next { s with
      cfgSeed := if idx = 0x01 then v else s.cfgSeed
      cfgSecret0 := if idx = 0x02 then v else s.cfgSecret0
      cfgSecret1 := if idx = 0x03 then v else s.cfgSecret1
      cfgSecret2 := if idx = 0x04 then v else s.cfgSecret2
      cfgSecret3 := if idx = 0x05 then v else s.cfgSecret3
      responses := s.responses ++ [0x00#8 ++ 0#64] }) ∧
    (idx.toNat < 1 ∨ 5 < idx.toNat → exec (.wrreg idx v) s = .next { s with
      status := if s.status.fault then s.status else { s.status with fault := true, fcause := 2, fop := 0x02 }
      responses := s.responses ++ [0x02#8 ++ 0#64] })

/-- R102, R33: `RDREG` of a readable index completes, responds with the register, zero extended, and changes no
state at all; with an index above `0x0F` it raises `ILLEGAL_OPERAND`. -/
def Obligations.RdregRespondsWithTheRegister : Prop :=
  ∀ (idx : Byte) (s : State),
    (idx.toNat ≤ 0x0F → ∃ d : Word,
      exec (.rdreg idx) s = .next { s with responses := s.responses ++ [0x00#8 ++ d] } ∧
      (idx = 0x00 → d.toNat = s.status.resv.toNat + 2 * s.status.fault.toNat +
        16 * s.status.fcause.toNat + 256 * s.status.fop.toNat) ∧
      (idx = 0x01 → d = s.cfgSeed) ∧ (idx = 0x02 → d = s.cfgSecret0) ∧ (idx = 0x03 → d = s.cfgSecret1) ∧
      (idx = 0x04 → d = s.cfgSecret2) ∧ (idx = 0x05 → d = s.cfgSecret3) ∧ (idx = 0x06 → d = s.res) ∧
      (idx = 0x07 → d = s.cnt) ∧ (idx = 0x08 → d.toNat = s.off.toNat) ∧ (idx = 0x09 → d = s.see0) ∧
      (idx = 0x0A → d = s.see1) ∧ (idx = 0x0B → d = s.see2) ∧ (idx = 0x0C → d = s.is) ∧
      (idx = 0x0D → d = s.s1) ∧ (idx = 0x0E → d = s.s2) ∧ (idx = 0x0F → d = s.s3)) ∧
    (0x0F < idx.toNat → exec (.rdreg idx) s = .next { s with
      status := if s.status.fault then s.status else { s.status with fault := true, fcause := 2, fop := 0x03 }
      responses := s.responses ++ [0x02#8 ++ 0#64] })

/-- R77: exactly these commands raise `ILLEGAL_OPERAND`: `PUTB` with `arg > 8`, `RDREG` with `arg > 0x0F`, `WRREG`
with `arg` outside `0x01 .. 0x05`. They change nothing but the fault record; no other command responds with
`rc = 0x02`. -/
def Obligations.IllegalOperandIsRejected : Prop :=
  ∀ (i : Instr) (s : State),
    let illegal := (∃ n v, i = .putb n v ∧ 8 < n.toNat) ∨ (∃ idx, i = .rdreg idx ∧ 0x0F < idx.toNat) ∨
      (∃ idx v, i = .wrreg idx v ∧ (idx.toNat < 0x01 ∨ 0x05 < idx.toNat))
    (illegal ↔ i.wellFormed = false) ∧
    (illegal → exec i s = .next { s with
      status := if s.status.fault then s.status
        else { s.status with fault := true, fcause := 2, fop := opcodeBits (opcodeOf i) }
      responses := s.responses ++ [0x02#8 ++ 0#64] }) ∧
    (¬ illegal → ∀ t, exec i s = .next t → ∀ d : Word, t.responses ≠ s.responses ++ [0x02#8 ++ d])

/-- R103: `DEFSEC` completes and copies the default schedule, nothing else. -/
def Obligations.DefsecLoadsTheDefault : Prop :=
  ∀ s : State, exec .defsec s = .next { s with
    cfgSecret0 := Config.defaultSecret.c0
    cfgSecret1 := Config.defaultSecret.c1
    cfgSecret2 := Config.defaultSecret.c2
    cfgSecret3 := Config.defaultSecret.c3
    responses := s.responses ++ [0x00#8 ++ 0#64] }

/-- R104: `INIT` completes, binds seed and schedule and starts an empty stream; `BUF`, `RES`, the configuration
and the fault record stay. -/
def Obligations.InitStartsAFreshComputation : Prop :=
  ∀ s : State, exec .init s = .next { s with
    is := s.cfgSeed ^^^ s.cfgSecret0
    s1 := s.cfgSecret1
    s2 := s.cfgSecret2
    s3 := s.cfgSecret3
    see0 := s.cfgSeed ^^^ s.cfgSecret0
    see1 := s.cfgSeed ^^^ s.cfgSecret0
    see2 := s.cfgSeed ^^^ s.cfgSecret0
    cnt := 0
    off := 0
    stream := []
    status := { s.status with resv := false }
    responses := s.responses ++ [0x00#8 ++ 0#64] }

/-- R23, R24: `IS` and `S1..S3` are written only by `INIT` and `RST`; the configuration only by `WRREG`,
`DEFSEC`, `GENSEC` and `RST`; the engine and the stream are not written by a configuration command. -/
def Obligations.WhoWritesTheBoundRegisters : Prop :=
  ∀ (i : Instr) (s t : State), exec i s = .next t →
    (i ≠ .init → i ≠ .rst → t.is = s.is ∧ t.s1 = s.s1 ∧ t.s2 = s.s2 ∧ t.s3 = s.s3) ∧
    ((isPut i = true ∨ i = .init ∨ i = .fin ∨ (∃ idx, i = .rdreg idx)) →
      t.cfgSeed = s.cfgSeed ∧ secrets t = secrets s) ∧
    (i = .defsec ∨ (∃ x, i = .gensec x) → t.cfgSeed = s.cfgSeed) ∧
    ((∃ idx v, i = .wrreg idx v) ∨ i = .defsec ∨ (∃ x, i = .gensec x) ∨ (∃ idx, i = .rdreg idx) ∨ i = .fin →
      accs t = accs s ∧ t.cnt = s.cnt ∧ t.off = s.off ∧ t.buf = s.buf ∧ t.stream = s.stream)

/-- R105, R210: configuration commands after `INIT` do not disturb the computation in progress: the hash `FIN`
then gives is the one it would have given before. -/
def Obligations.ConfigurationWaitsForInit : Prop :=
  ∀ (i : Instr) (s t u : State),
    (∃ idx v, i = .wrreg idx v) ∨ i = .defsec ∨ (∃ x, i = .gensec x) →
    exec i s = .next t → exec .fin s = .next u →
    ∃ u', exec .fin t = .next u' ∧ u'.res = u.res ∧ u'.responses.getLast? = u.responses.getLast?

/-! ## The mixing primitive -/

/-- R90: `mix(a, b)` is the low half of the exact product xored with its high half. -/
def Obligations.MixFoldsTheFullProduct : Prop :=
  ∀ a b : Word, (mix a b).toNat = (a.toNat * b.toNat % 2 ^ 64) ^^^ (a.toNat * b.toNat / 2 ^ 64)

/-- R93: the laws of `mix`. -/
def Obligations.MixLaws : Prop :=
  (∀ a b : Word, mix a b = mix b a) ∧
  (∀ a b : Word, mix a 0 = 0 ∧ mix 0 b = 0) ∧
  (∀ a : Word, mix a 1 = a ∧ mix 1 a = a) ∧
  (∀ a b : Word, a.toNat * b.toNat < 2 ^ 64 → (mix a b).toNat = a.toNat * b.toNat) ∧
  (∀ (a : Word) (k : Nat), 1 ≤ k → k ≤ 63 → mix a (1#64 <<< k) = (a <<< k) ^^^ (a >>> (64 - k))) ∧
  mix 0xFFFFFFFFFFFFFFFF 0xFFFFFFFFFFFFFFFF = 0xFFFFFFFFFFFFFFFF ∧
  ¬ Function.Injective (fun p : Word × Word => mix p.1 p.2)

/-! ## The buffer -/

/-- R52: `MemRead(addr, n)` is the sum of its bytes, the one at the lowest address least significant. -/
def Obligations.MemReadIsLittleEndian : Prop :=
  ∀ (m : Memory) (a n : Nat) (T : List Byte), n ≤ 8 → a + n ≤ 56 → T.length = n →
    (∀ k, k < n → m.read (a + k) = T[k]?) →
    ∃ r, memRead m a n = .ok r ∧
      r.toNat = ((List.range n).map (fun k => (T.getD k 0).toNat * 2 ^ (8 * k))).sum

/-- R53: after `MemWrite(a, n, v)` the byte at `a + k` is `v[8k+7:8k]` and every other byte is as before; and a value
written by one `MemWrite(a, 8, v)` and read back by `MemRead(a+4, 4)` gives `v[63:32]`. -/
def Obligations.MemWritePlacesTheBytes : Prop :=
  ∀ (m : Memory) (a n : Nat) (v : Word), n ≤ 8 → a + n ≤ 56 →
    ∃ m', memWrite m a n v = .ok m' ∧
      (∀ k, k < n → m'.read (a + k) = some (v.extractLsb' (8 * k) 8)) ∧
      (∀ x, x < a ∨ a + n ≤ x → m'.read x = m.read x) ∧
      (n = 8 → memRead m' (a + 4) 4 = .ok ((v.extractLsb' 32 32).setWidth 64))

/-! ## The puts -/

/-- R120, R124 to R129: a put of at least one byte that stays within 48 bytes completes, appends its bytes at
`OFF` and changes nothing else but `OFF`, `CNT`, the stream and `RESV`. -/
def Obligations.PutWithinTheBlock : Prop :=
  ∀ (i : Instr) (s : State) (bs : List Byte), isPut i = true → i.wellFormed = true →
    bytesOf i = bs → bs ≠ [] → s.off.toNat + bs.length ≤ 48 → s.cnt.toNat + bs.length < 2 ^ 64 →
    ∃ t, exec i s = .next t ∧
      t = { s with
        buf := t.buf
        off := BitVec.ofNat 6 (s.off.toNat + bs.length)
        cnt := BitVec.ofNat 64 (s.cnt.toNat + bs.length)
        stream := s.stream ++ bs
        status := { s.status with resv := false }
        responses := s.responses ++ [0x00#8 ++ 0#64] } ∧
      (∀ k, k < bs.length → t.buf.read (s.off.toNat + k) = bs[k]?) ∧
      (∀ a, a < s.off.toNat ∨ s.off.toNat + bs.length ≤ a → t.buf.read a = s.buf.read a)

/-- R120, R122, R123: a put that passes 48 bytes completes: the block `T`, made of the `OFF` bytes held and the
first of the new ones, is absorbed into the three accumulators, the bytes beyond it move to the front, and the
other bytes of the block stay in the buffer. -/
def Obligations.PutAcrossTheBlock : Prop :=
  ∀ (i : Instr) (s : State) (bs H T : List Byte), isPut i = true → i.wellFormed = true →
    bytesOf i = bs → s.off.toNat ≤ 48 → 48 < s.off.toNat + bs.length →
    s.cnt.toNat + bs.length < 2 ^ 64 → Holds s.buf s.off.toNat H → T = (H ++ bs).take 48 →
    ∃ t, exec i s = .next t ∧
      t = { s with
        buf := t.buf
        off := BitVec.ofNat 6 (s.off.toNat + bs.length - 48)
        cnt := BitVec.ofNat 64 (s.cnt.toNat + bs.length)
        see0 := mix (le64 T 0 ^^^ s.s1) (le64 T 8 ^^^ s.see0)
        see1 := mix (le64 T 16 ^^^ s.s2) (le64 T 24 ^^^ s.see1)
        see2 := mix (le64 T 32 ^^^ s.s3) (le64 T 40 ^^^ s.see2)
        stream := s.stream ++ bs
        status := { s.status with resv := false }
        responses := s.responses ++ [0x00#8 ++ 0#64] } ∧
      (∀ k, k < s.off.toNat + bs.length - 48 → t.buf.read k = (H ++ bs)[48 + k]?) ∧
      (∀ k, s.off.toNat + bs.length - 48 ≤ k → k < 48 → t.buf.read k = T[k]?) ∧
      (∀ k, 48 ≤ k → k < s.off.toNat + bs.length → t.buf.read k = (H ++ bs)[k]?) ∧
      (∀ a, s.off.toNat + bs.length ≤ a → t.buf.read a = s.buf.read a)

/-- R121: a put that would bring `CNT` to `2^64` is rejected before anything is written. -/
def Obligations.CountOverflowRejectsThePut : Prop :=
  ∀ (i : Instr) (s : State), isPut i = true → i.wellFormed = true → bytesOf i ≠ [] →
    2 ^ 64 ≤ s.cnt.toNat + (bytesOf i).length →
    exec i s = .next { s with
      status := if s.status.fault then s.status
        else { s.status with fault := true, fcause := 3, fop := opcodeBits (opcodeOf i) }
      responses := s.responses ++ [0x03#8 ++ 0#64] }

/-- R129, R184: `PUTB 0` completes in every state and changes nothing, not even `RESV`; `PUTB` with `n > 8` is
rejected as `ILLEGAL_OPERAND` whatever the count. -/
def Obligations.PutbCornerCases : Prop :=
  ∀ (v : Word) (s : State),
    exec (.putb 0 v) s = .next { s with responses := s.responses ++ [0x00#8 ++ 0#64] } ∧
    ∀ n : Byte, 8 < n.toNat → exec (.putb n v) s = .next { s with
      status := if s.status.fault then s.status else { s.status with fault := true, fcause := 2, fop := 0x15 }
      responses := s.responses ++ [0x02#8 ++ 0#64] }

/-- R131: an integer put leaves the same computation as its bytes put one by one. -/
def Obligations.TypeWriteEquivalence : Prop :=
  ∀ (i : Instr) (s t : State), isPut i = true → i.wellFormed = true → StreamInv s →
    s.cnt.toNat + (bytesOf i).length < 2 ^ 64 → exec i s = .next t →
    ∃ u, Host.Core.run Sys2Proof.core (bytesOf i).length
        { s with inbox := presented ((bytesOf i).map Instr.put8) } = .next u ∧
      SameComputation t u ∧ t.stream = u.stream

/-- R132: a sequence of `PUTC` commands appends the two bytes of each character, low byte first. -/
def Obligations.CharacterSequenceEquivalence : Prop :=
  ∀ (cs : List (BitVec 16)) (s : State), StreamInv s → s.cnt.toNat + 2 * cs.length < 2 ^ 64 →
    ∃ t, Host.Core.run Sys2Proof.core cs.length { s with inbox := presented (cs.map Instr.putc) } = .next t ∧
      t.stream = s.stream ++ cs.flatMap (fun c => [c.extractLsb' 0 8, c.extractLsb' 8 8]) ∧ StreamInv t

/-- R130: what the puts leave depends only on the stream, not on how the commands cut it. -/
def Obligations.ChunkingIndependence : Prop :=
  ∀ (s : State) (is js : List Instr), StreamInv s →
    (∀ i ∈ is ++ js, isPut i = true ∧ i.wellFormed = true) →
    bytesOfAll is = bytesOfAll js → s.cnt.toNat + (bytesOfAll is).length < 2 ^ 64 →
    ∃ t u t' u',
      Host.Core.run Sys2Proof.core is.length { s with inbox := presented is } = .next t ∧
      Host.Core.run Sys2Proof.core js.length { s with inbox := presented js } = .next u ∧
      SameComputation t u ∧
      exec .fin t = .next t' ∧ exec .fin u = .next u' ∧ t'.res = u'.res

/-! ## The finalizer -/

/-- R141 to R143, R147: `FIN` on at most 16 bytes, from the buffered bytes `T`. -/
def Obligations.FinOfAShortStream : Prop :=
  ∀ (s : State) (T : List Byte), s.cnt.toNat ≤ 16 → s.off.toNat = s.cnt.toNat → Holds s.buf s.off.toNat T →
    ∃ a b h : Word,
      exec .fin s = .next { s with
        res := h
        status := { s.status with resv := true }
        responses := s.responses ++ [0x00#8 ++ h] } ∧
      h = mix (s.s1 ^^^ s.cnt) (mix (a ^^^ s.s1) (b ^^^ s.see0)) ∧
      (T.length = 0 → a = 0 ∧ b = 0) ∧
      (1 ≤ T.length → T.length ≤ 3 →
        a.toNat = (T.getD 0 0).toNat * 2 ^ 16 + (T.getD (T.length / 2) 0).toNat * 2 ^ 8 +
          (T.getD (T.length - 1) 0).toNat ∧ b = 0) ∧
      (4 ≤ T.length →
        let q := (T.length / 8) * 4
        a = (le32 T 0 <<< 32) ||| le32 T q ∧
        b = (le32 T (T.length - 4) <<< 32) ||| le32 T (T.length - 4 - q))

/-- R141, R144, R147: `FIN` on more than 16 bytes, from the buffered bytes `T` and, when fewer than 16 are
buffered, the bytes `K` the last absorbed block left in `BUF[32+OFF .. 47]`. `OFF` is at most 48 (R41), so at
most two segments are folded. -/
def Obligations.FinOfALongStream : Prop :=
  ∀ (s : State) (T K : List Byte), 16 < s.cnt.toNat → s.off.toNat ≤ 48 → Holds s.buf s.off.toNat T →
    K.length = 16 - s.off.toNat →
    (∀ k, k < 16 - s.off.toNat → s.buf.read (32 + s.off.toNat + k) = K[k]?) →
    ∃ f g z h : Word, ∃ L : List Byte,
      exec .fin s = .next { s with
        res := h
        status := { s.status with resv := true }
        responses := s.responses ++ [0x00#8 ++ h] } ∧
      f = (if 48 < s.cnt.toNat then s.see0 ^^^ s.see1 ^^^ s.see2 else s.see0) ∧
      g = (if 16 < s.off.toNat then mix (le64 T 0 ^^^ s.s1) (le64 T 8 ^^^ f) else f) ∧
      z = (if 32 < s.off.toNat then mix (le64 T 16 ^^^ s.s1) (le64 T 24 ^^^ g) else g) ∧
      L = (if 16 ≤ s.off.toNat then T.drop (s.off.toNat - 16) else K ++ T) ∧ L.length = 16 ∧
      h = mix (s.s1 ^^^ s.cnt) (mix (le64 L 0 ^^^ s.s1) (le64 L 8 ^^^ z))

/-- R146: `FIN` writes `RES` and `RESV` only, and a second `FIN` gives the same response. -/
def Obligations.FinIsReadOnlyAndIdempotent : Prop :=
  ∀ s t : State, exec .fin s = .next t →
    t = { s with
      res := t.res
      status := { s.status with resv := true }
      responses := s.responses ++ [0x00#8 ++ t.res] } ∧
    exec .fin t = .next { t with responses := t.responses ++ [0x00#8 ++ t.res] }

/-- R145: streaming equals one-shot. In every state that satisfies the invariants of R40 to R44, `FIN` completes
and responds with `WYHASH64` of the whole stream, under any seed and first constant whose xor is `IS`. -/
def Obligations.StreamingEqualsOneShot : Prop :=
  ∀ (s : State) (seedb secret0b : Word), StreamInv s → seedb ^^^ secret0b = s.is →
    exec .fin s = .next { s with
      res := wyhash64 s.stream seedb ⟨secret0b, s.s1, s.s2, s.s3⟩
      status := { s.status with resv := true }
      responses := s.responses ++ [0x00#8 ++ wyhash64 s.stream seedb ⟨secret0b, s.s1, s.s2, s.s3⟩] }

/-- R148: how many blocks and segments `WYHASH64` folds for a length, and where its tail lies. -/
def Obligations.LengthClasses : Prop :=
  ∀ (B : List Byte) (s s1 s2 s3 : Word), 16 < B.length →
    let n := B.length
    let nb := if n ≤ 48 then 0 else (n - 1) / 48
    let e := accAfter s1 s2 s3 B nb ⟨s, s, s⟩
    let f := if n ≤ 48 then s else e.e0 ^^^ e.e1 ^^^ e.e2
    let p := 48 * nb
    let g := if 16 < n - p then mix (le64 B p ^^^ s1) (le64 B (p + 8) ^^^ f) else f
    let z := if 32 < n - p then mix (le64 B (p + 16) ^^^ s1) (le64 B (p + 24) ^^^ g) else g
    longABS B s s1 s2 s3 = (le64 B (n - 16), le64 B (n - 8), z) ∧ 1 ≤ n - p ∧ n - p ≤ 48

/-- R161: for streams of at most 48 bytes `secret[2]` and `secret[3]` do not affect the result. -/
def Obligations.ShortStreamsUseTwoSecrets : Prop :=
  ∀ (B : List Byte) (seed c0 c1 c2 c3 d2 d3 : Word), B.length ≤ 48 →
    wyhash64 B seed ⟨c0, c1, c2, c3⟩ = wyhash64 B seed ⟨c0, c1, d2, d3⟩

/-! ## The secret schedule -/

/-- R163, R164: one candidate takes eight steps of the running seed; lane `j` is the table entry the draw of the
`(j+1)`-th seed selects, reduced modulo the length of the table. For every choice of the parameters. For an empty
table, in which R164 has no entry to select, the value 0 of a lane is the model's choice (log entry 14). -/
def Obligations.CandidateLanes : Prop :=
  ∀ (P : GenParams) (r : Word),
    (candidate P r).1 = r + 8 * P.inc ∧
    ∀ j, j < 8 →
      let r' := r + BitVec.ofNat 64 (j + 1) * P.inc
      (candidate P r).2.extractLsb' (8 * j) 8 = P.table.getD ((mix r' (r' ^^^ P.xorc)).toNat % P.table.length) 0

/-- R165: the generator. With `c k` the `k`-th candidate of the one running seed, which is never rewound, it
succeeds exactly when the slots accept candidates `p0 < p1 < p2 < p3`, each within `cap` tries and each the first
acceptable one after the slot before; the schedule is then those four candidates. -/
def Obligations.GeneratorTakesTheFirstAcceptable : Prop :=
  ∀ (P : GenParams) (cap : Nat) (seedS : Word) (x : Schedule),
    let c := fun k : Nat => (candidate P (seedS + BitVec.ofNat 64 (8 * k) * P.inc)).2
    let ok := fun (prev : List Word) (w : Word) => w.getLsbD 0 = true ∧ ∀ q ∈ prev, hamming w q = 32
    let first := fun (prev : List Word) (start p : Nat) =>
      start ≤ p ∧ p < start + cap ∧ ok prev (c p) ∧ ∀ k, start ≤ k → k < p → ¬ ok prev (c k)
    generate P cap seedS = some x ↔
      ∃ p0 p1 p2 p3 : Nat,
        first [] 0 p0 ∧ first [c p0] (p0 + 1) p1 ∧ first [c p0, c p1] (p1 + 1) p2 ∧
        first [c p0, c p1, c p2] (p2 + 1) p3 ∧ x = ⟨c p0, c p1, c p2, c p3⟩

/-- R165: when the generator succeeds on the secret seed, `GENSEC` completes and writes the four secret registers
and nothing else. The cap is the one of log entry 3 (DESIGN CHOICE: finite, at least 4096, otherwise open). -/
def Obligations.GensecWritesTheSchedule : Prop :=
  ∀ (seedS : Word) (s : State) (x : Schedule), generate Config.genParams Config.ssRetryCap seedS = some x →
    exec (.gensec seedS) s = .next { s with
      cfgSecret0 := x.c0
      cfgSecret1 := x.c1
      cfgSecret2 := x.c2
      cfgSecret3 := x.c3
      responses := s.responses ++ [0x00#8 ++ 0#64] }

/-- R165, R182: when a slot is exhausted `GENSEC` changes nothing but the fault record, whatever the parameters and
the retry cap; and the command of this hardware is the one with its parameters and its cap (log
entry 3, DESIGN CHOICE: finite, at least 4096, otherwise open). -/
def Obligations.GensecExhausted : Prop :=
  ∀ (P : GenParams) (cap : Nat) (seedS : Word) (s : State),
    (generate P cap seedS = none → gensecWith P cap seedS s = { s with
      status := if s.status.fault then s.status else { s.status with fault := true, fcause := 4, fop := 0x05 }
      responses := s.responses ++ [0x04#8 ++ 0#64] }) ∧
    exec (.gensec seedS) s = .next (gensecWith Config.genParams Config.ssRetryCap seedS s)

/-- R166, R160: a schedule a successful `GENSEC` leaves is valid: all four constants odd, all six pairwise
Hamming distances 32. For every choice of the parameters and of the cap. -/
def Obligations.GeneratedScheduleIsValid : Prop :=
  ∀ (P : GenParams) (cap : Nat) (seedS : Word) (s : State), (generate P cap seedS).isSome = true →
    let t := gensecWith P cap seedS s
    t.cfgSecret0.getLsbD 0 = true ∧ t.cfgSecret1.getLsbD 0 = true ∧
    t.cfgSecret2.getLsbD 0 = true ∧ t.cfgSecret3.getLsbD 0 = true ∧
    hamming t.cfgSecret0 t.cfgSecret1 = 32 ∧ hamming t.cfgSecret0 t.cfgSecret2 = 32 ∧
    hamming t.cfgSecret0 t.cfgSecret3 = 32 ∧ hamming t.cfgSecret1 t.cfgSecret2 = 32 ∧
    hamming t.cfgSecret1 t.cfgSecret3 = 32 ∧ hamming t.cfgSecret2 t.cfgSecret3 = 32

/-! ## Faults -/

/-- R181, R182: a command that responds with a fault code has changed nothing but the fault record: no register,
no buffer byte, no part of the stream. -/
def Obligations.FaultChangesOnlyTheRecord : Prop :=
  ∀ (w : CommandWord) (s t : State) (rc : Byte) (d : Word), retireWord w s = .next t →
    t.responses = s.responses ++ [rc ++ d] → rc ≠ 0 →
    t = { s with
      status := if s.status.fault then s.status
        else { s.status with fault := true, fcause := rc.setWidth 4, fop := w.extractLsb' 72 8 }
      responses := s.responses ++ [rc ++ 0#64] }

/-- R185, R35: the record of the first fault stays until `RST` or reset: no other command clears or changes it. -/
def Obligations.FirstFaultStaysRecorded : Prop :=
  ∀ (w : CommandWord) (s t : State), retireWord w s = .next t → s.status.fault = true →
    (∀ i, decode w = .ok i → i ≠ .rst) →
    t.status.fault = true ∧ t.status.fcause = s.status.fcause ∧ t.status.fop = s.status.fop

/-- R183: with `FAULT = 1` every command executes exactly as with `FAULT = 0`: two states that differ in the
fault record alone are taken to states that differ in it alone, and every response but that of `RDREG STATUS` is
the same. For `RST` the equality takes in `RES` and `BUF`, which R34, R46 and R100 leave unspecified after it: there it
is the model's choice, the same free value in `RES` (log entry 4: one function of free values and one counter `freeIdx`)
and a `BUF` that lists nothing (log entry 5). -/
def Obligations.FaultDoesNotStopTheCore : Prop :=
  ∀ (i : Instr) (s t : State) (f : Bool) (c : BitVec 4) (op : Byte), exec i s = .next t →
    ∃ t', exec i { s with status := ⟨s.status.resv, f, c, op⟩ } = .next t' ∧
      t'.status.resv = t.status.resv ∧
      { t' with status := t.status, responses := t.responses } = t ∧
      (i ≠ .rdreg 0x00 → t'.responses = t.responses)

/-- R35: `RESV` is set by `FIN`, cleared by `INIT`, `RST` and every put that appends at least one byte, and left
alone by every other command and by every rejected one. -/
def Obligations.WhoChangesResv : Prop :=
  ∀ (i : Instr) (s t : State), exec i s = .next t →
    (i = .fin → t.status.resv = true) ∧
    (i = .init ∨ i = .rst → t.status.resv = false) ∧
    (isPut i = true → t.stream ≠ s.stream → t.status.resv = false) ∧
    (i ≠ .fin → i ≠ .init → i ≠ .rst → t.stream = s.stream → t.status.resv = s.status.resv)

/-! ## Invariants and runs -/

/-- The invariants of R40 to R44, the canonical buffer and the fault record hold after reset (R46). -/
def Obligations.ResetSatisfiesTheInvariants : Prop := Inv State.reset ∧ ResultCurrent State.reset

/-- R40 to R44: every step keeps the invariants, faulting commands and the hardware reset included. -/
def Obligations.StepKeepsTheInvariants : Prop :=
  ∀ s t : State, Inv s → step s = .next t → Inv t

/-- R35: while the invariants hold, every step keeps the promise of `RESV`: when it is 1, `RES` is `WYHASH64` of
the current stream. -/
def Obligations.StepKeepsTheResultCurrent : Prop :=
  ∀ s t : State, Inv s → ResultCurrent s → step s = .next t → ResultCurrent t

/-- R55, R45, R212: in a state that satisfies the invariants every step answers a next state: no buffer access
is out of range, no unwritten byte is read, and every command retires. For `GENSEC` that is the model's choice of a
finite retry cap (log entry 3): D20 leaves the cap open, and R165 and R212 make `GENSEC` retire only under a finite
one. -/
def Obligations.EveryStepRetires : Prop :=
  ∀ s : State, Inv s → ∃ t, step s = .next t

/-- R213, R72: a run of any length from any state that satisfies the invariants goes on without a stop, ends in
such a state, and has returned one response for each command presented so far. For a run with a `GENSEC` in it that
rests on the model's choice of a finite retry cap (log entry 3). -/
def Obligations.RunsAnswerEveryCommand : Prop :=
  ∀ (s : State) (ws : List CommandWord), Inv s →
    ∃ t, Host.Core.run Sys2Proof.core ws.length (presenting ws s) = .next t ∧ Inv t ∧
      t.inbox = s.inbox ∧ ∃ rs, t.responses = s.responses ++ rs ∧ rs.length = ws.length

/-- 00_scope R10: `STREAM` is a ghost: what it holds changes no register, no buffer byte and no response. That it is
a field of State is log entry 9. For `RST` and the hardware reset the equality takes in the unspecified `RES` and `BUF`
(R34, R46): there it is the model's choice, the same free value (log entry 4) and a `BUF` that lists nothing (log
entry 5). -/
def Obligations.StreamIsAGhost : Prop :=
  ∀ (s : State) (g : List Byte),
    match step s, step { s with stream := g } with
    | .next t, .next t' => { t' with stream := t.stream } = t
    | .fault f, .fault f' => f = f'
    | _, _ => False

/-- R81: the simple pseudo-instructions. A signed and an unsigned put of one width append the same bytes for the
same bits: each expands to one word, which decodes to the put of those bits. -/
def Obligations.SimplePseudoInstructions : Prop :=
  (∀ v : Word, (expand (.ldseed v)).map decode = [.ok (.wrreg 0x01 v)]) ∧
  (∀ (k : Fin 4) (v : Word), (expand (.ldsec k v)).map decode = [.ok (.wrreg (BitVec.ofNat 8 (2 + k.val)) v)]) ∧
  (∀ v : BitVec 8, (expand (.puti8 v)).map decode = [.ok (.put8 v)] ∧
    (expand (.putu8 v)).map decode = [.ok (.put8 v)]) ∧
  (∀ v : BitVec 16, (expand (.puti16 v)).map decode = [.ok (.put16 v)] ∧
    (expand (.putu16 v)).map decode = [.ok (.put16 v)]) ∧
  (∀ v : BitVec 32, (expand (.puti32 v)).map decode = [.ok (.put32 v)] ∧
    (expand (.putu32 v)).map decode = [.ok (.put32 v)]) ∧
  (∀ v : BitVec 64, (expand (.puti64 v)).map decode = [.ok (.put64 v)] ∧
    (expand (.putu64 v)).map decode = [.ok (.put64 v)]) ∧
  (expand .rdres).map decode = [.ok (.rdreg 0x06)] ∧
  (expand .rdst).map decode = [.ok (.rdreg 0x00)]

/-- R82: from every state, `HASH64 seed, b0 ... b(n-1)` retires completely and its last response is `WYHASH64` of
the bytes under the seed and the schedule in `CFG_SECRET0..3`. -/
def Obligations.HashPseudoInstruction : Prop :=
  ∀ (s : State) (seed : Word) (bs : List Byte), bs.length < 2 ^ 64 →
    ∃ t, Host.Core.run Sys2Proof.core (expand (.hash64 seed bs)).length
        (presenting (expand (.hash64 seed bs)) s) = .next t ∧
      t.inbox = s.inbox ∧ t.stream = bs ∧
      t.responses.getLast? = some (0x00#8 ++ wyhash64 bs seed (secrets s)) ∧
      t.res = wyhash64 bs seed (secrets s) ∧ t.status.resv = true

/-- R83: `PUTBYTES` of `n` bytes expands to `floor(n/8)` commands `PUTB 8` and, when `n mod 8 = r > 0`, one
`PUTB r` after them: command `j` carries the bytes from `b(8j)` on, the first in bits 7:0. Retired, they append exactly
the bytes. -/
def Obligations.PutBytesPseudoInstruction : Prop :=
  ∀ (s : State) (bs : List Byte), StreamInv s → s.cnt.toNat + bs.length < 2 ^ 64 →
    (expand (.putbytes bs)).length = (bs.length + 7) / 8 ∧
    (∀ j, j < (bs.length + 7) / 8 →
      ∃ (n : Byte) (v : Word), ((expand (.putbytes bs))[j]?).map decode = some (.ok (.putb n v)) ∧
        n.toNat = (if j < bs.length / 8 then 8 else bs.length % 8) ∧
        ∀ k, k < n.toNat → bs[8 * j + k]? = some (v.extractLsb' (8 * k) 8)) ∧
    ∃ t, Host.Core.run Sys2Proof.core (expand (.putbytes bs)).length
        (presenting (expand (.putbytes bs)) s) = .next t ∧
      t.stream = s.stream ++ bs ∧ StreamInv t ∧ t.inbox = s.inbox

/-- R202: directly after reset, put commands followed by `FIN` give `WYHASH64(STREAM, 0, DEFAULT_SECRET)`. -/
def Obligations.DefaultHashAfterReset : Prop :=
  ∀ is : List Instr, (∀ i ∈ is, isPut i = true ∧ i.wellFormed = true) → (bytesOfAll is).length < 2 ^ 64 →
    ∃ t, Host.Core.run Sys2Proof.core (is.length + 1)
        { State.reset with inbox := presented (is ++ [.fin]) } = .next t ∧
      t.responses.getLast? = some (0x00#8 ++ wyhash64 (bytesOfAll is) 0 Config.defaultSecret)
end

