-- ==== Sys2Proof/Laws/Decode.lean ====
section
/-! SUPPORT. The fields of a command word and the opcode map (spec 30_encoding rules R70, R71, R73). -/

namespace Sys2Proof

/-- The bits of a command word, field by field (R70). -/
theorem getLsbD_commandWord (op arg : Byte) (data : Word) (i : Nat) :
    (commandWord op arg data).getLsbD i =
      if i < 64 then data.getLsbD i
      else if i - 64 < 8 then arg.getLsbD (i - 64)
      else op.getLsbD (i - 64 - 8) := by
  refine (BitVec.getLsbD_append (x := op ++ arg) (y := data)).trans ?_
  split
  · rfl
  · exact BitVec.getLsbD_append (x := op) (y := arg)

@[simp] theorem opField_commandWord (op arg : Byte) (data : Word) : opField (commandWord op arg data) = op := by
  refine BitVec.eq_of_getLsbD_eq (fun i hi => ?_)
  rw [opField, BitVec.getLsbD_extractLsb', getLsbD_commandWord, if_neg (by omega), if_neg (by omega),
    show 72 + i - 64 - 8 = i by omega]
  simp [hi]

@[simp] theorem argField_commandWord (op arg : Byte) (data : Word) : argField (commandWord op arg data) = arg := by
  refine BitVec.eq_of_getLsbD_eq (fun i hi => ?_)
  rw [argField, BitVec.getLsbD_extractLsb', getLsbD_commandWord, if_neg (by omega), if_pos (by omega),
    show 64 + i - 64 = i by omega]
  simp [hi]

@[simp] theorem dataField_commandWord (op arg : Byte) (data : Word) : dataField (commandWord op arg data) = data := by
  refine BitVec.eq_of_getLsbD_eq (fun i hi => ?_)
  rw [dataField, BitVec.getLsbD_extractLsb', getLsbD_commandWord, if_pos (by omega), Nat.zero_add]
  simp [hi]

/-- An opcode is selected by its own bits (R71). -/
@[simp] theorem opcodeOfBits_opcodeBits (o : Opcode) : opcodeOfBits (opcodeBits o) = some o := by
  cases o <;> decide

/-- The bits that select an opcode are its own (R71). -/
theorem opcodeBits_of_opcodeOfBits {b : Byte} {o : Opcode} (h : opcodeOfBits b = some o) : opcodeBits o = b := by
  simpa using List.find?_some h

/-- The assembled instruction has the opcode it was assembled for. -/
@[simp] theorem opcodeOf_assemble (arg : Byte) (data : Word) (o : Opcode) :
    opcodeOf (assemble arg data o) = o := by
  cases o <;> rfl

/-- The two answers of the decoder (R71, R76). -/
theorem decode_cases (w : CommandWord) :
    (∃ o, opcodeBits o = opField w ∧ decode w = .ok (assemble (argField w) (dataField w) o)) ∨
    ((∀ o, opcodeBits o ≠ opField w) ∧ decode w = .error (.illegalOpcode (opField w))) := by
  unfold decode
  split
  · rename_i o h
    exact .inl ⟨o, opcodeBits_of_opcodeOfBits h, rfl⟩
  · rename_i h
    refine .inr ⟨fun o ho => ?_, rfl⟩
    rw [← ho, opcodeOfBits_opcodeBits] at h
    cases h

end Sys2Proof
end

