-- ==== Sys2Proof/Laws/Memory.lean ====
section
/-! SUPPORT. The buffer: a read after a write, that every operation keeps the canonical form, and what a
range of bytes reads as. -/

namespace Sys2Proof.Machine

theorem Memory.read_write_same (m : Memory) (a : Nat) (b : Byte) : (m.write a b).read a = some b := by
  induction m with
  | nil => simp [Memory.write, Memory.read]
  | cons c m ih =>
    unfold Memory.write
    split
    · simp [Memory.read]
    · split
      · simp [Memory.read]
      · rename_i _ h
        simp [Memory.read, ih, Ne.symm h]

theorem Memory.read_write_other (m : Memory) {a x : Nat} (b : Byte) (hx : x ≠ a) :
    (m.write a b).read x = m.read x := by
  induction m with
  | nil => simp [Memory.write, Memory.read, Ne.symm hx]
  | cons c m ih =>
    unfold Memory.write
    split
    · simp [Memory.read, Ne.symm hx]
    · split
      · rename_i h
        simp [Memory.read, ← h, Ne.symm hx]
      · simp [Memory.read, ih]

/-- A list of bytes written from `a` up: an address in range reads its byte, every other as before. -/
theorem Memory.read_writeList (m : Memory) (a : Nat) (bs : List Byte) (x : Nat) :
    (m.writeList a bs).read x = if a ≤ x ∧ x < a + bs.length then bs[x - a]? else m.read x := by
  induction bs generalizing m a with
  | nil =>
    have : ¬ (a ≤ x ∧ x < a + 0) := by omega
    simp only [Memory.writeList, List.length_nil, this, if_false]
  | cons b bs ih =>
    rw [Memory.writeList, ih, List.length_cons]
    by_cases hx : x = a
    · subst hx
      rw [if_neg (by omega), if_pos (by omega), Memory.read_write_same]
      simp
    · by_cases hr : a + 1 ≤ x ∧ x < a + 1 + bs.length
      · rw [if_pos hr, if_pos (by omega)]
        obtain ⟨k, rfl⟩ : ∃ k, x = a + 1 + k := ⟨x - (a + 1), by omega⟩
        simp [show a + 1 + k - a = k + 1 by omega]
      · rw [if_neg hr, if_neg (by omega), Memory.read_write_other m b hx]

/-- The head of a canonical buffer exists and lies below the rest, which is canonical. -/
theorem Memory.wf_cons {c : Host.Cell} {m : Memory} :
    Memory.wf (c :: m) = true ↔ c.1 < bufSize ∧ (∀ d ∈ m.head?, c.1 < d.1) ∧ Memory.wf m = true := by
  cases m with
  | nil => simp [Memory.wf]
  | cons d m =>
    have key : Memory.wf (d :: m) = true → d.1 < bufSize := by
      intro h
      cases m with
      | nil => simpa [Memory.wf] using h
      | cons e m =>
        induction m generalizing d e with
        | nil => simp [Memory.wf] at h; omega
        | cons f m ih =>
          simp only [Memory.wf, Bool.and_eq_true, decide_eq_true_eq] at h ih
          have := ih e f h.2
          omega
    simp only [Memory.wf, Bool.and_eq_true, decide_eq_true_eq, List.head?_cons, Option.mem_def,
      Option.some.injEq, forall_eq']
    constructor
    · rintro ⟨h1, h2⟩
      exact ⟨Nat.lt_trans h1 (key h2), h1, h2⟩
    · rintro ⟨_, h1, h2⟩
      exact ⟨h1, h2⟩

theorem Memory.head?_write (m : Memory) (a : Nat) (b : Byte) :
    ∀ d ∈ (m.write a b).head?, d.1 = a ∨ (∀ c ∈ m.head?, c.1 = d.1 ∧ c.1 < a) ∧ m ≠ [] := by
  cases m with
  | nil => simp [Memory.write]
  | cons c m =>
    unfold Memory.write
    split
    · simp
    · split
      · simp
      · simp; omega

/-- A write to an address that exists keeps the canonical form. -/
theorem Memory.wf_write {m : Memory} {a : Nat} {b : Byte} (h : m.wf = true) (ha : a < bufSize) :
    (m.write a b).wf = true := by
  induction m with
  | nil => simpa [Memory.write, Memory.wf] using ha
  | cons c m ih =>
    obtain ⟨h1, h2, h3⟩ := Memory.wf_cons.mp h
    unfold Memory.write
    split
    · rename_i hlt
      exact Memory.wf_cons.mpr ⟨ha, by simpa using hlt, h⟩
    · split
      · rename_i heq
        exact Memory.wf_cons.mpr ⟨ha, by rw [heq]; exact h2, h3⟩
      · rename_i hn he
        refine Memory.wf_cons.mpr ⟨h1, ?_, ih h3⟩
        intro d hd
        rcases Memory.head?_write m a b d hd with hda | ⟨hc, hne⟩
        · omega
        · obtain ⟨e, m', rfl⟩ := List.exists_cons_of_ne_nil hne
          have := h2 e (by simp)
          have := hc e (by simp)
          omega

/-- A range of bytes that exist, written, keeps the canonical form. -/
theorem Memory.wf_writeList {m : Memory} {a : Nat} {bs : List Byte} (h : m.wf = true)
    (ha : a + bs.length ≤ bufSize) : (m.writeList a bs).wf = true := by
  induction bs generalizing m a with
  | nil => exact h
  | cons b bs ih =>
    rw [List.length_cons] at ha
    exact ih (Memory.wf_write h (by omega)) (by omega)

/-- `storeBytes` answers exactly when every address exists, with the list written. -/
theorem storeBytes_ok_iff {m m' : Memory} {a : Nat} {bs : List Byte} :
    storeBytes m a bs = .ok m' ↔ a + bs.length ≤ bufSize ∧ m' = m.writeList a bs := by
  unfold storeBytes
  split <;> rename_i h <;> simp [h, eq_comm]

theorem storeBytes_wf {m m' : Memory} {a : Nat} {bs : List Byte} (hm : m.wf = true)
    (h : storeBytes m a bs = .ok m') : m'.wf = true := by
  obtain ⟨h1, rfl⟩ := storeBytes_ok_iff.mp h
  exact Memory.wf_writeList hm h1

/-- A byte reads exactly when its address exists and it is listed. -/
theorem readByte_ok_iff {m : Memory} {a : Nat} {b : Byte} :
    readByte m a = .ok b ↔ a < bufSize ∧ m.read a = some b := by
  unfold readByte
  split
  · rename_i h
    cases hr : m.read a <;> simp [h]
  · rename_i h
    simp [h]

/-- A range reads exactly when every address in it exists and is listed; the bytes come in order. -/
theorem readBytes_ok_iff {m : Memory} {a n : Nat} {bs : List Byte} :
    readBytes m a n = .ok bs ↔
      bs.length = n ∧ ∀ k, k < n → a + k < bufSize ∧ m.read (a + k) = bs[k]? := by
  induction n generalizing a bs with
  | zero =>
    simp only [readBytes, Except.ok.injEq, Nat.not_lt_zero, false_implies, implies_true, and_true]
    exact ⟨fun h => by simp [← h], fun h => (List.eq_nil_of_length_eq_zero h).symm⟩
  | succ n ih =>
    unfold readBytes
    constructor
    · intro h
      split at h
      · cases h
      · rename_i b hb
        split at h
        · cases h
        · rename_i bs' hbs
          cases h
          obtain ⟨h1, h2⟩ := readByte_ok_iff.mp hb
          obtain ⟨h3, h4⟩ := ih.mp hbs
          refine ⟨by simp [h3], ?_⟩
          intro k hk
          cases k with
          | zero => exact ⟨h1, by simpa using h2⟩
          | succ k =>
            have := h4 k (by omega)
            rw [show a + (k + 1) = a + 1 + k by omega]
            simpa using this
    · rintro ⟨h1, h2⟩
      obtain ⟨b, bs', rfl⟩ : ∃ b bs', bs = b :: bs' := by
        cases bs with
        | nil => simp at h1
        | cons b bs' => exact ⟨b, bs', rfl⟩
      have hb : readByte m a = .ok b := readByte_ok_iff.mpr (by simpa using h2 0 (by omega))
      have hbs : readBytes m (a + 1) n = .ok bs' := by
        refine ih.mpr ⟨by simpa using h1, ?_⟩
        intro k hk
        have := h2 (k + 1) (by omega)
        rw [show a + (k + 1) = a + 1 + k by omega] at this
        simpa using this
      rw [hb]
      simp only [hbs]

/-- `MemRead` answers exactly when the bytes read, with their little-endian number (R52). -/
theorem memRead_ok_of_readBytes {m : Memory} {a n : Nat} {bs : List Byte} (h : readBytes m a n = .ok bs) :
    memRead m a n = .ok (BitVec.ofNat 64 (leNat bs)) := by
  simp [memRead, h]

/-- A word inside a range whose bytes are known. -/
theorem memRead_eq_le64 {m : Memory} {a n i : Nat} {T : List Byte} (h : readBytes m a n = .ok T)
    (hi : i + 8 ≤ n) : memRead m (a + i) 8 = .ok (le64 T i) := by
  obtain ⟨h1, h2⟩ := readBytes_ok_iff.mp h
  refine memRead_ok_of_readBytes (bs := (T.drop i).take 8) (readBytes_ok_iff.mpr ⟨by simp; omega, ?_⟩)
  intro k hk
  have := h2 (i + k) (by omega)
  rw [show a + i + k = a + (i + k) by omega, List.getElem?_take_of_lt hk, List.getElem?_drop]
  exact this

end Sys2Proof.Machine
end

