-- ==== Sys2Proof/Laws/Operands.lean ====
section
/-! SUPPORT. Byte sequences and words: lengths, elements, little-endian numbers, and how the words of a part
of a sequence are those of the whole. -/

namespace Sys2Proof.Machine

@[simp] theorem valueBytes_length (n : Nat) (v : Word) : (valueBytes n v).length = n := by
  simp [valueBytes]

theorem valueBytes_getElem? {n k : Nat} (v : Word) (h : k < n) : (valueBytes n v)[k]? = some (byteOf v k) := by
  simp [valueBytes, h]

theorem leNat_lt (bs : List Byte) : leNat bs < 256 ^ bs.length := by
  induction bs with
  | nil => simp [leNat]
  | cons b bs ih =>
    have := b.isLt
    simp only [leNat, List.length_cons, pow_succ]
    omega

/-- The low `n` bytes of a word make its value modulo `256 ^ n` (20_memory rules R52, R53). -/
theorem leNat_valueBytes (n : Nat) (v : Word) : leNat (valueBytes n v) = v.toNat % 256 ^ n := by
  suffices h : ∀ (n j : Nat), leNat ((List.range' j n).map (byteOf v)) = v.toNat / 256 ^ j % 256 ^ n by
    simpa [valueBytes, List.range_eq_range'] using h n 0
  intro n
  induction n with
  | zero => intro j; simp [leNat, Nat.mod_one]
  | succ n ih =>
    intro j
    have hb : (byteOf v j).toNat = v.toNat / 256 ^ j % 256 := by
      simp [byteOf, BitVec.extractLsb'_toNat, Nat.shiftRight_eq_div_pow, pow_mul]
    rw [List.range'_succ, List.map_cons, leNat, ih, hb, pow_succ 256 j, ← Nat.div_div_eq_div_mul,
      pow_succ' 256 n, Nat.mod_mul]

/-- The bytes of a zero-extended operand are those of the operand (30_encoding rule R74). -/
theorem valueBytes_setWidth {w : Nat} (n : Nat) (v : BitVec w) (h : 8 * n ≤ w) (hw : w ≤ 64) :
    valueBytes n (v.setWidth 64) = (List.range n).map (fun k => v.extractLsb' (8 * k) 8) := by
  unfold valueBytes
  refine List.map_congr_left fun k hk => BitVec.eq_of_getLsbD_eq fun i hi => ?_
  have hk := List.mem_range.mp hk
  simp [byteOf, hi, show 8 * k + i < 64 by omega]

theorem take_drop_append_left {A B : List Byte} {i n : Nat} (h : i + n ≤ A.length) :
    ((A ++ B).drop i).take n = (A.drop i).take n := by
  rw [List.drop_append_of_le_length (by omega), List.take_append_of_le_length (by simp; omega)]

/-- A word that lies in the first part of a sequence. -/
theorem le64_append_left {A B : List Byte} {i : Nat} (h : i + 8 ≤ A.length) : le64 (A ++ B) i = le64 A i := by
  simp [le64, take_drop_append_left h]

/-- A word of the rest of a sequence. -/
theorem le64_drop (B : List Byte) (p i : Nat) : le64 (B.drop p) i = le64 B (p + i) := by
  simp [le64, List.drop_drop]

/-- A word of an initial part of a sequence. -/
theorem le64_take {B : List Byte} {i n : Nat} (h : i + 8 ≤ n) : le64 (B.take n) i = le64 B i := by
  simp [le64, List.drop_take, List.take_take, show min 8 (n - i) = 8 by omega]

theorem absorbBlock_append_left {s1 s2 s3 : Word} {A B : List Byte} {p : Nat} {e : Acc}
    (h : p + 48 ≤ A.length) : absorbBlock s1 s2 s3 (A ++ B) p e = absorbBlock s1 s2 s3 A p e := by
  simp only [absorbBlock]
  rw [le64_append_left (by omega), le64_append_left (by omega), le64_append_left (by omega),
    le64_append_left (by omega), le64_append_left (by omega), le64_append_left (by omega)]

theorem absorbBlock_drop (s1 s2 s3 : Word) (B : List Byte) (p q : Nat) (e : Acc) :
    absorbBlock s1 s2 s3 (B.drop p) q e = absorbBlock s1 s2 s3 B (p + q) e := by
  simp only [absorbBlock, le64_drop, Nat.add_assoc]

theorem absorbBlock_take {s1 s2 s3 : Word} {B : List Byte} {p n : Nat} {e : Acc} (h : p + 48 ≤ n) :
    absorbBlock s1 s2 s3 (B.take n) p e = absorbBlock s1 s2 s3 B p e := by
  simp only [absorbBlock]
  rw [le64_take (by omega), le64_take (by omega), le64_take (by omega), le64_take (by omega),
    le64_take (by omega), le64_take (by omega)]

end Sys2Proof.Machine
end

