-- ==== Sys2Proof/Laws/State.lean ====
section
/-! SUPPORT. One lemma per field per named update of the state, each true by `rfl`. -/

namespace Sys2Proof.Machine

/-! ### `respond` -/

@[simp] theorem respond_see0 (rc : Byte) (d : Word) (s : State) : (respond rc d s).see0 = s.see0 := rfl
@[simp] theorem respond_see1 (rc : Byte) (d : Word) (s : State) : (respond rc d s).see1 = s.see1 := rfl
@[simp] theorem respond_see2 (rc : Byte) (d : Word) (s : State) : (respond rc d s).see2 = s.see2 := rfl
@[simp] theorem respond_is (rc : Byte) (d : Word) (s : State) : (respond rc d s).is = s.is := rfl
@[simp] theorem respond_s1 (rc : Byte) (d : Word) (s : State) : (respond rc d s).s1 = s.s1 := rfl
@[simp] theorem respond_s2 (rc : Byte) (d : Word) (s : State) : (respond rc d s).s2 = s.s2 := rfl
@[simp] theorem respond_s3 (rc : Byte) (d : Word) (s : State) : (respond rc d s).s3 = s.s3 := rfl
@[simp] theorem respond_cnt (rc : Byte) (d : Word) (s : State) : (respond rc d s).cnt = s.cnt := rfl
@[simp] theorem respond_off (rc : Byte) (d : Word) (s : State) : (respond rc d s).off = s.off := rfl
@[simp] theorem respond_buf (rc : Byte) (d : Word) (s : State) : (respond rc d s).buf = s.buf := rfl
@[simp] theorem respond_cfgSeed (rc : Byte) (d : Word) (s : State) : (respond rc d s).cfgSeed = s.cfgSeed := rfl
@[simp] theorem respond_cfgSecret0 (rc : Byte) (d : Word) (s : State) : (respond rc d s).cfgSecret0 = s.cfgSecret0 := rfl
@[simp] theorem respond_cfgSecret1 (rc : Byte) (d : Word) (s : State) : (respond rc d s).cfgSecret1 = s.cfgSecret1 := rfl
@[simp] theorem respond_cfgSecret2 (rc : Byte) (d : Word) (s : State) : (respond rc d s).cfgSecret2 = s.cfgSecret2 := rfl
@[simp] theorem respond_cfgSecret3 (rc : Byte) (d : Word) (s : State) : (respond rc d s).cfgSecret3 = s.cfgSecret3 := rfl
@[simp] theorem respond_res (rc : Byte) (d : Word) (s : State) : (respond rc d s).res = s.res := rfl
@[simp] theorem respond_status (rc : Byte) (d : Word) (s : State) : (respond rc d s).status = s.status := rfl
@[simp] theorem respond_stream (rc : Byte) (d : Word) (s : State) : (respond rc d s).stream = s.stream := rfl
@[simp] theorem respond_inbox (rc : Byte) (d : Word) (s : State) : (respond rc d s).inbox = s.inbox := rfl
@[simp] theorem respond_responses (rc : Byte) (d : Word) (s : State) : (respond rc d s).responses = s.responses ++ [response rc d] := rfl
@[simp] theorem respond_freeIdx (rc : Byte) (d : Word) (s : State) : (respond rc d s).freeIdx = s.freeIdx := rfl

/-! ### `raiseFault` -/

@[simp] theorem raiseFault_see0 (c : FaultCause) (op : Byte) (s : State) : (raiseFault c op s).see0 = s.see0 := rfl
@[simp] theorem raiseFault_see1 (c : FaultCause) (op : Byte) (s : State) : (raiseFault c op s).see1 = s.see1 := rfl
@[simp] theorem raiseFault_see2 (c : FaultCause) (op : Byte) (s : State) : (raiseFault c op s).see2 = s.see2 := rfl
@[simp] theorem raiseFault_is (c : FaultCause) (op : Byte) (s : State) : (raiseFault c op s).is = s.is := rfl
@[simp] theorem raiseFault_s1 (c : FaultCause) (op : Byte) (s : State) : (raiseFault c op s).s1 = s.s1 := rfl
@[simp] theorem raiseFault_s2 (c : FaultCause) (op : Byte) (s : State) : (raiseFault c op s).s2 = s.s2 := rfl
@[simp] theorem raiseFault_s3 (c : FaultCause) (op : Byte) (s : State) : (raiseFault c op s).s3 = s.s3 := rfl
@[simp] theorem raiseFault_cnt (c : FaultCause) (op : Byte) (s : State) : (raiseFault c op s).cnt = s.cnt := rfl
@[simp] theorem raiseFault_off (c : FaultCause) (op : Byte) (s : State) : (raiseFault c op s).off = s.off := rfl
@[simp] theorem raiseFault_buf (c : FaultCause) (op : Byte) (s : State) : (raiseFault c op s).buf = s.buf := rfl
@[simp] theorem raiseFault_cfgSeed (c : FaultCause) (op : Byte) (s : State) : (raiseFault c op s).cfgSeed = s.cfgSeed := rfl
@[simp] theorem raiseFault_cfgSecret0 (c : FaultCause) (op : Byte) (s : State) : (raiseFault c op s).cfgSecret0 = s.cfgSecret0 := rfl
@[simp] theorem raiseFault_cfgSecret1 (c : FaultCause) (op : Byte) (s : State) : (raiseFault c op s).cfgSecret1 = s.cfgSecret1 := rfl
@[simp] theorem raiseFault_cfgSecret2 (c : FaultCause) (op : Byte) (s : State) : (raiseFault c op s).cfgSecret2 = s.cfgSecret2 := rfl
@[simp] theorem raiseFault_cfgSecret3 (c : FaultCause) (op : Byte) (s : State) : (raiseFault c op s).cfgSecret3 = s.cfgSecret3 := rfl
@[simp] theorem raiseFault_res (c : FaultCause) (op : Byte) (s : State) : (raiseFault c op s).res = s.res := rfl
@[simp] theorem raiseFault_status (c : FaultCause) (op : Byte) (s : State) : (raiseFault c op s).status = s.status.record c op := rfl
@[simp] theorem raiseFault_stream (c : FaultCause) (op : Byte) (s : State) : (raiseFault c op s).stream = s.stream := rfl
@[simp] theorem raiseFault_inbox (c : FaultCause) (op : Byte) (s : State) : (raiseFault c op s).inbox = s.inbox := rfl
@[simp] theorem raiseFault_responses (c : FaultCause) (op : Byte) (s : State) : (raiseFault c op s).responses = s.responses ++ [response (c.code.setWidth 8) 0] := rfl
@[simp] theorem raiseFault_freeIdx (c : FaultCause) (op : Byte) (s : State) : (raiseFault c op s).freeIdx = s.freeIdx := rfl

/-! ### `setSecrets` -/

@[simp] theorem setSecrets_see0 (s : State) (x : Schedule) : (setSecrets s x).see0 = s.see0 := rfl
@[simp] theorem setSecrets_see1 (s : State) (x : Schedule) : (setSecrets s x).see1 = s.see1 := rfl
@[simp] theorem setSecrets_see2 (s : State) (x : Schedule) : (setSecrets s x).see2 = s.see2 := rfl
@[simp] theorem setSecrets_is (s : State) (x : Schedule) : (setSecrets s x).is = s.is := rfl
@[simp] theorem setSecrets_s1 (s : State) (x : Schedule) : (setSecrets s x).s1 = s.s1 := rfl
@[simp] theorem setSecrets_s2 (s : State) (x : Schedule) : (setSecrets s x).s2 = s.s2 := rfl
@[simp] theorem setSecrets_s3 (s : State) (x : Schedule) : (setSecrets s x).s3 = s.s3 := rfl
@[simp] theorem setSecrets_cnt (s : State) (x : Schedule) : (setSecrets s x).cnt = s.cnt := rfl
@[simp] theorem setSecrets_off (s : State) (x : Schedule) : (setSecrets s x).off = s.off := rfl
@[simp] theorem setSecrets_buf (s : State) (x : Schedule) : (setSecrets s x).buf = s.buf := rfl
@[simp] theorem setSecrets_cfgSeed (s : State) (x : Schedule) : (setSecrets s x).cfgSeed = s.cfgSeed := rfl
@[simp] theorem setSecrets_cfgSecret0 (s : State) (x : Schedule) : (setSecrets s x).cfgSecret0 = x.c0 := rfl
@[simp] theorem setSecrets_cfgSecret1 (s : State) (x : Schedule) : (setSecrets s x).cfgSecret1 = x.c1 := rfl
@[simp] theorem setSecrets_cfgSecret2 (s : State) (x : Schedule) : (setSecrets s x).cfgSecret2 = x.c2 := rfl
@[simp] theorem setSecrets_cfgSecret3 (s : State) (x : Schedule) : (setSecrets s x).cfgSecret3 = x.c3 := rfl
@[simp] theorem setSecrets_res (s : State) (x : Schedule) : (setSecrets s x).res = s.res := rfl
@[simp] theorem setSecrets_status (s : State) (x : Schedule) : (setSecrets s x).status = s.status := rfl
@[simp] theorem setSecrets_stream (s : State) (x : Schedule) : (setSecrets s x).stream = s.stream := rfl
@[simp] theorem setSecrets_inbox (s : State) (x : Schedule) : (setSecrets s x).inbox = s.inbox := rfl
@[simp] theorem setSecrets_responses (s : State) (x : Schedule) : (setSecrets s x).responses = s.responses := rfl
@[simp] theorem setSecrets_freeIdx (s : State) (x : Schedule) : (setSecrets s x).freeIdx = s.freeIdx := rfl

/-! ### `setAcc` -/

@[simp] theorem setAcc_see0 (s : State) (e : Acc) : (setAcc s e).see0 = e.e0 := rfl
@[simp] theorem setAcc_see1 (s : State) (e : Acc) : (setAcc s e).see1 = e.e1 := rfl
@[simp] theorem setAcc_see2 (s : State) (e : Acc) : (setAcc s e).see2 = e.e2 := rfl
@[simp] theorem setAcc_is (s : State) (e : Acc) : (setAcc s e).is = s.is := rfl
@[simp] theorem setAcc_s1 (s : State) (e : Acc) : (setAcc s e).s1 = s.s1 := rfl
@[simp] theorem setAcc_s2 (s : State) (e : Acc) : (setAcc s e).s2 = s.s2 := rfl
@[simp] theorem setAcc_s3 (s : State) (e : Acc) : (setAcc s e).s3 = s.s3 := rfl
@[simp] theorem setAcc_cnt (s : State) (e : Acc) : (setAcc s e).cnt = s.cnt := rfl
@[simp] theorem setAcc_off (s : State) (e : Acc) : (setAcc s e).off = s.off := rfl
@[simp] theorem setAcc_buf (s : State) (e : Acc) : (setAcc s e).buf = s.buf := rfl
@[simp] theorem setAcc_cfgSeed (s : State) (e : Acc) : (setAcc s e).cfgSeed = s.cfgSeed := rfl
@[simp] theorem setAcc_cfgSecret0 (s : State) (e : Acc) : (setAcc s e).cfgSecret0 = s.cfgSecret0 := rfl
@[simp] theorem setAcc_cfgSecret1 (s : State) (e : Acc) : (setAcc s e).cfgSecret1 = s.cfgSecret1 := rfl
@[simp] theorem setAcc_cfgSecret2 (s : State) (e : Acc) : (setAcc s e).cfgSecret2 = s.cfgSecret2 := rfl
@[simp] theorem setAcc_cfgSecret3 (s : State) (e : Acc) : (setAcc s e).cfgSecret3 = s.cfgSecret3 := rfl
@[simp] theorem setAcc_res (s : State) (e : Acc) : (setAcc s e).res = s.res := rfl
@[simp] theorem setAcc_status (s : State) (e : Acc) : (setAcc s e).status = s.status := rfl
@[simp] theorem setAcc_stream (s : State) (e : Acc) : (setAcc s e).stream = s.stream := rfl
@[simp] theorem setAcc_inbox (s : State) (e : Acc) : (setAcc s e).inbox = s.inbox := rfl
@[simp] theorem setAcc_responses (s : State) (e : Acc) : (setAcc s e).responses = s.responses := rfl
@[simp] theorem setAcc_freeIdx (s : State) (e : Acc) : (setAcc s e).freeIdx = s.freeIdx := rfl

/-! ### `bindEngine` -/

@[simp] theorem bindEngine_see0 (s : State) : (bindEngine s).see0 = s.cfgSeed ^^^ s.cfgSecret0 := rfl
@[simp] theorem bindEngine_see1 (s : State) : (bindEngine s).see1 = s.cfgSeed ^^^ s.cfgSecret0 := rfl
@[simp] theorem bindEngine_see2 (s : State) : (bindEngine s).see2 = s.cfgSeed ^^^ s.cfgSecret0 := rfl
@[simp] theorem bindEngine_is (s : State) : (bindEngine s).is = s.cfgSeed ^^^ s.cfgSecret0 := rfl
@[simp] theorem bindEngine_s1 (s : State) : (bindEngine s).s1 = s.cfgSecret1 := rfl
@[simp] theorem bindEngine_s2 (s : State) : (bindEngine s).s2 = s.cfgSecret2 := rfl
@[simp] theorem bindEngine_s3 (s : State) : (bindEngine s).s3 = s.cfgSecret3 := rfl
@[simp] theorem bindEngine_cnt (s : State) : (bindEngine s).cnt = 0 := rfl
@[simp] theorem bindEngine_off (s : State) : (bindEngine s).off = 0 := rfl
@[simp] theorem bindEngine_buf (s : State) : (bindEngine s).buf = s.buf := rfl
@[simp] theorem bindEngine_cfgSeed (s : State) : (bindEngine s).cfgSeed = s.cfgSeed := rfl
@[simp] theorem bindEngine_cfgSecret0 (s : State) : (bindEngine s).cfgSecret0 = s.cfgSecret0 := rfl
@[simp] theorem bindEngine_cfgSecret1 (s : State) : (bindEngine s).cfgSecret1 = s.cfgSecret1 := rfl
@[simp] theorem bindEngine_cfgSecret2 (s : State) : (bindEngine s).cfgSecret2 = s.cfgSecret2 := rfl
@[simp] theorem bindEngine_cfgSecret3 (s : State) : (bindEngine s).cfgSecret3 = s.cfgSecret3 := rfl
@[simp] theorem bindEngine_res (s : State) : (bindEngine s).res = s.res := rfl
@[simp] theorem bindEngine_status (s : State) : (bindEngine s).status = s.status.setResv false := rfl
@[simp] theorem bindEngine_stream (s : State) : (bindEngine s).stream = [] := rfl
@[simp] theorem bindEngine_inbox (s : State) : (bindEngine s).inbox = s.inbox := rfl
@[simp] theorem bindEngine_responses (s : State) : (bindEngine s).responses = s.responses := rfl
@[simp] theorem bindEngine_freeIdx (s : State) : (bindEngine s).freeIdx = s.freeIdx := rfl

/-! ### `toReset` -/

@[simp] theorem toReset_see0 (s : State) : (toReset s).see0 = State.reset.see0 := rfl
@[simp] theorem toReset_see1 (s : State) : (toReset s).see1 = State.reset.see1 := rfl
@[simp] theorem toReset_see2 (s : State) : (toReset s).see2 = State.reset.see2 := rfl
@[simp] theorem toReset_is (s : State) : (toReset s).is = State.reset.is := rfl
@[simp] theorem toReset_s1 (s : State) : (toReset s).s1 = State.reset.s1 := rfl
@[simp] theorem toReset_s2 (s : State) : (toReset s).s2 = State.reset.s2 := rfl
@[simp] theorem toReset_s3 (s : State) : (toReset s).s3 = State.reset.s3 := rfl
@[simp] theorem toReset_cnt (s : State) : (toReset s).cnt = State.reset.cnt := rfl
@[simp] theorem toReset_off (s : State) : (toReset s).off = State.reset.off := rfl
@[simp] theorem toReset_buf (s : State) : (toReset s).buf = State.reset.buf := rfl
@[simp] theorem toReset_cfgSeed (s : State) : (toReset s).cfgSeed = State.reset.cfgSeed := rfl
@[simp] theorem toReset_cfgSecret0 (s : State) : (toReset s).cfgSecret0 = State.reset.cfgSecret0 := rfl
@[simp] theorem toReset_cfgSecret1 (s : State) : (toReset s).cfgSecret1 = State.reset.cfgSecret1 := rfl
@[simp] theorem toReset_cfgSecret2 (s : State) : (toReset s).cfgSecret2 = State.reset.cfgSecret2 := rfl
@[simp] theorem toReset_cfgSecret3 (s : State) : (toReset s).cfgSecret3 = State.reset.cfgSecret3 := rfl
@[simp] theorem toReset_res (s : State) : (toReset s).res = Config.freeRes s.freeIdx := rfl
@[simp] theorem toReset_status (s : State) : (toReset s).status = State.reset.status := rfl
@[simp] theorem toReset_stream (s : State) : (toReset s).stream = State.reset.stream := rfl
@[simp] theorem toReset_inbox (s : State) : (toReset s).inbox = s.inbox := rfl
@[simp] theorem toReset_responses (s : State) : (toReset s).responses = s.responses := rfl
@[simp] theorem toReset_freeIdx (s : State) : (toReset s).freeIdx = s.freeIdx + 1 := rfl

/-! ### `presentNext` -/

@[simp] theorem presentNext_see0 (w : CommandWord) (s : State) : (presentNext w s).see0 = s.see0 := rfl
@[simp] theorem presentNext_see1 (w : CommandWord) (s : State) : (presentNext w s).see1 = s.see1 := rfl
@[simp] theorem presentNext_see2 (w : CommandWord) (s : State) : (presentNext w s).see2 = s.see2 := rfl
@[simp] theorem presentNext_is (w : CommandWord) (s : State) : (presentNext w s).is = s.is := rfl
@[simp] theorem presentNext_s1 (w : CommandWord) (s : State) : (presentNext w s).s1 = s.s1 := rfl
@[simp] theorem presentNext_s2 (w : CommandWord) (s : State) : (presentNext w s).s2 = s.s2 := rfl
@[simp] theorem presentNext_s3 (w : CommandWord) (s : State) : (presentNext w s).s3 = s.s3 := rfl
@[simp] theorem presentNext_cnt (w : CommandWord) (s : State) : (presentNext w s).cnt = s.cnt := rfl
@[simp] theorem presentNext_off (w : CommandWord) (s : State) : (presentNext w s).off = s.off := rfl
@[simp] theorem presentNext_buf (w : CommandWord) (s : State) : (presentNext w s).buf = s.buf := rfl
@[simp] theorem presentNext_cfgSeed (w : CommandWord) (s : State) : (presentNext w s).cfgSeed = s.cfgSeed := rfl
@[simp] theorem presentNext_cfgSecret0 (w : CommandWord) (s : State) : (presentNext w s).cfgSecret0 = s.cfgSecret0 := rfl
@[simp] theorem presentNext_cfgSecret1 (w : CommandWord) (s : State) : (presentNext w s).cfgSecret1 = s.cfgSecret1 := rfl
@[simp] theorem presentNext_cfgSecret2 (w : CommandWord) (s : State) : (presentNext w s).cfgSecret2 = s.cfgSecret2 := rfl
@[simp] theorem presentNext_cfgSecret3 (w : CommandWord) (s : State) : (presentNext w s).cfgSecret3 = s.cfgSecret3 := rfl
@[simp] theorem presentNext_res (w : CommandWord) (s : State) : (presentNext w s).res = s.res := rfl
@[simp] theorem presentNext_status (w : CommandWord) (s : State) : (presentNext w s).status = s.status := rfl
@[simp] theorem presentNext_stream (w : CommandWord) (s : State) : (presentNext w s).stream = s.stream := rfl
@[simp] theorem presentNext_inbox (w : CommandWord) (s : State) : (presentNext w s).inbox = .command w :: s.inbox := rfl
@[simp] theorem presentNext_responses (w : CommandWord) (s : State) : (presentNext w s).responses = s.responses := rfl
@[simp] theorem presentNext_freeIdx (w : CommandWord) (s : State) : (presentNext w s).freeIdx = s.freeIdx := rfl

/-! ### `Status` -/

@[simp] theorem setResv_resv (st : Status) (b : Bool) : (st.setResv b).resv = b := rfl
@[simp] theorem setResv_fault (st : Status) (b : Bool) : (st.setResv b).fault = st.fault := rfl
@[simp] theorem setResv_fcause (st : Status) (b : Bool) : (st.setResv b).fcause = st.fcause := rfl
@[simp] theorem setResv_fop (st : Status) (b : Bool) : (st.setResv b).fop = st.fop := rfl

@[simp] theorem record_resv (st : Status) (c : FaultCause) (op : Byte) : (st.record c op).resv = st.resv := by
  unfold Status.record; split <;> rfl

@[simp] theorem record_fault (st : Status) (c : FaultCause) (op : Byte) : (st.record c op).fault = true := by
  unfold Status.record; split
  · assumption
  · rfl

/-- A fault is recorded only while none is. -/
theorem record_of_fault {st : Status} (c : FaultCause) (op : Byte) (h : st.fault = true) :
    st.record c op = st := by simp [Status.record, h]

/-- The first fault since reset is recorded with its code and opcode. -/
theorem record_of_quiet {st : Status} (c : FaultCause) (op : Byte) (h : st.fault = false) :
    st.record c op = { st with fault := true, fcause := c.code, fop := op } := by simp [Status.record, h]

end Sys2Proof.Machine
end

