-- ==== Sys2Proof/Laws/Finalize.lean ====
section
/-! SUPPORT. What the finalizer computes from a buffer whose held bytes are known (spec 43_finalize rules R141
to R144). -/

namespace Sys2Proof.Machine

/-- The segment loop on the buffer is the one on the held bytes (R144). -/
theorem finSegments_eq {m : Memory} {off : Nat} {T : List Byte} (h : readBytes m 0 off = .ok T) (s1 : Word)
    (fuel : Nat) : ∀ (i : Nat) (s : Word),
      finSegments m s1 off fuel i s = .ok (segmentLoop T s1 fuel i (off - i) s) := by
  have r := fun i hi => memRead_eq_le64 (i := i) h hi
  simp only [Nat.zero_add] at r
  induction fuel with
  | zero => intro i s; rfl
  | succ fuel ih =>
    intro i s
    unfold finSegments segmentLoop
    by_cases hc : i + 16 < off
    · rw [if_pos hc, if_pos (by omega), r i (by omega), r (i + 8) (by omega)]
      simp [bind, Except.bind, ih, Nat.sub_sub]
    · rw [if_neg hc, if_neg (by omega)]

/-- The tail when at least 16 bytes are held (R144). -/
theorem finTail_in_place {m : Memory} {off : Nat} {T : List Byte} (h : readBytes m 0 off = .ok T)
    (ho : 16 ≤ off) : finTail m off = .ok (T.drop (off - 16)) := by
  obtain ⟨h1, h2⟩ := readBytes_ok_iff.mp h
  rw [finTail, if_pos ho]
  refine readBytes_ok_iff.mpr ⟨by simp; omega, ?_⟩
  intro k hk
  have := h2 (off - 16 + k) (by omega)
  rw [Nat.zero_add] at this
  rwa [List.getElem?_drop]

/-- The tail when fewer are held: the bytes `K` of the last absorbed block come first (R144). -/
theorem finTail_wrapped {m : Memory} {off : Nat} {T K : List Byte} (h : readBytes m 0 off = .ok T)
    (hk : readBytes m (32 + off) (16 - off) = .ok K) (ho : off < 16) : finTail m off = .ok (K ++ T) := by
  simp [finTail, show ¬ 16 ≤ off by omega, h, hk, bind, Except.bind, pure, Except.pure]

/-- The hash of a short stream (R141). -/
theorem finHash_short {s : State} {T : List Byte} (hc : s.cnt.toNat ≤ 16)
    (h : readBytes s.buf 0 s.off.toNat = .ok T) :
    finHash s = .ok (finish (shortAB T s.off.toNat).1 (shortAB T s.off.toNat).2 s.see0 s.cnt s.s1) := by
  simp [finHash, hc, h, bind, Except.bind, pure, Except.pure]

/-- The hash of a longer stream, from the held bytes `T` and its last 16 bytes `L` (R141, R144). -/
theorem finHash_long {s : State} {T L : List Byte} (hc : 16 < s.cnt.toNat)
    (h : readBytes s.buf 0 s.off.toNat = .ok T) (hL : finTail s.buf s.off.toNat = .ok L) :
    finHash s = .ok (finish (le64 L 0) (le64 L 8)
      (segmentLoop T s.s1 s.off.toNat 0 s.off.toNat
        (if 48 < s.cnt.toNat then (accs s).fold else s.see0)) s.cnt s.s1) := by
  simp [finHash, show ¬ s.cnt.toNat ≤ 16 by omega, finLong, finSegments_eq h, hL, bind, Except.bind, pure,
    Except.pure]

/-- Everything `FIN` can answer with a next state: it writes `RES`, `RESV` and its response (R146). -/
theorem execFin_cases {s t : State} (h : execFin s = .next t) :
    ∃ w, finHash s = .ok w ∧
      t = respond rcOk w { s with res := w, status := s.status.setResv true } := by
  unfold execFin at h
  split at h
  · cases h; exact ⟨_, ‹_›, rfl⟩
  · cases h

/-- The hash depends on `CNT`, `OFF`, `BUF`, the accumulators and `S1` alone (R146). -/
theorem finHash_congr {s t : State} (hc : s.cnt = t.cnt) (ho : s.off = t.off) (hb : s.buf = t.buf)
    (ha : accs s = accs t) (h1 : s.s1 = t.s1) : finHash s = finHash t := by
  simp only [accs, Acc.mk.injEq] at ha
  simp [finHash, finLong, accs, hc, ho, hb, ha, h1]

end Sys2Proof.Machine
end

