-- ==== Sys2Proof/Laws/Wyhash.lean ====
section
/-! SUPPORT. The reference function's loops (spec 43_finalize rule R140): what the block loop leaves, and that
the segment loop depends on the sequence from its index on and on no more fuel than it has bytes. -/

namespace Sys2Proof.Machine

/-- The number of blocks of a stream of `n` bytes (10_state rule R41). -/
def blockCount (n : Nat) : Nat := if n ≤ 48 then 0 else (n - 1) / 48

theorem blockCount_succ {n : Nat} (h : 48 < n) : blockCount n = blockCount (n - 48) + 1 := by
  unfold blockCount
  split <;> split <;> omega

theorem fillOf_eq (n : Nat) : fillOf n = n - 48 * blockCount n := by
  unfold fillOf blockCount
  split <;> omega

theorem fillOf_le (n : Nat) : fillOf n ≤ 48 := by
  unfold fillOf
  split <;> omega

theorem fillOf_le_self (n : Nat) : fillOf n ≤ n := by
  unfold fillOf
  split <;> omega

theorem fillOf_pos {n : Nat} (h : 0 < n) : 0 < fillOf n := by
  unfold fillOf
  split <;> omega

theorem blocks_of_fill (n : Nat) : (n - fillOf n) / 48 = blockCount n := by
  unfold fillOf blockCount
  split <;> omega

/-- What the block loop leaves when it starts at block `j` with `i` bytes left. -/
theorem blockLoop_eq (B : List Byte) (s1 s2 s3 : Word) (e : Acc) (fuel : Nat) :
    ∀ (j i : Nat), i ≤ fuel →
      blockLoop B s1 s2 s3 fuel (48 * j) i (accAfter s1 s2 s3 B j e) =
        (48 * (j + blockCount i), i - 48 * blockCount i, accAfter s1 s2 s3 B (j + blockCount i) e) := by
  induction fuel with
  | zero =>
    intro j i hi
    simp [blockLoop, blockCount, show i = 0 by omega]
  | succ fuel ih =>
    intro j i hi
    unfold blockLoop
    split
    · rename_i h
      have := ih (j + 1) (i - 48) (by omega)
      rw [accAfter, show 48 * (j + 1) = 48 * j + 48 by omega] at this
      rw [this, blockCount_succ h, show j + 1 + blockCount (i - 48) = j + (blockCount (i - 48) + 1) by omega,
        show i - 48 - 48 * blockCount (i - 48) = i - 48 * (blockCount (i - 48) + 1) by omega]
    · rename_i h
      simp [blockCount, show i ≤ 48 by omega]

/-- The accumulators depend only on the blocks absorbed. -/
theorem accAfter_append (s1 s2 s3 : Word) (A B : List Byte) (nb : Nat) (e : Acc) (h : 48 * nb ≤ A.length) :
    accAfter s1 s2 s3 (A ++ B) nb e = accAfter s1 s2 s3 A nb e := by
  induction nb with
  | zero => rfl
  | succ nb ih => rw [accAfter, accAfter, ih (by omega), absorbBlock_append_left (by omega)]

/-- The segment loop reads the sequence from its index on. -/
theorem segmentLoop_drop (B : List Byte) (s1 : Word) (q : Nat) (fuel : Nat) :
    ∀ (p i : Nat) (s : Word),
      segmentLoop (B.drop q) s1 fuel p i s = segmentLoop B s1 fuel (q + p) i s := by
  induction fuel with
  | zero => intro p i s; rfl
  | succ fuel ih =>
    intro p i s
    simp only [segmentLoop, ih, le64_drop, Nat.add_assoc]

/-- Fuel beyond the bytes left changes nothing. -/
theorem segmentLoop_fuel (B : List Byte) (s1 : Word) (fuel : Nat) :
    ∀ (fuel' p i : Nat) (s : Word), i ≤ fuel → i ≤ fuel' →
      segmentLoop B s1 fuel p i s = segmentLoop B s1 fuel' p i s := by
  induction fuel with
  | zero =>
    intro fuel' p i s h h'
    cases fuel' with
    | zero => rfl
    | succ fuel' => simp [segmentLoop, show ¬ 16 < i by omega]
  | succ fuel ih =>
    intro fuel' p i s h h'
    cases fuel' with
    | zero => simp [segmentLoop, show ¬ 16 < i by omega]
    | succ fuel' =>
      simp only [segmentLoop]
      split
      · exact ih fuel' _ _ _ (by omega) (by omega)
      · rfl

/-- The segment loop on at most 48 bytes folds at most two segments (43_finalize rule R148). -/
theorem segmentLoop_short (B : List Byte) (s1 : Word) (p i : Nat) (s : Word) (h : i ≤ 48) :
    segmentLoop B s1 i p i s =
      (let g := if 16 < i then segment s1 (le64 B p) (le64 B (p + 8)) s else s
       if 32 < i then segment s1 (le64 B (p + 16)) (le64 B (p + 24)) g else g) := by
  rw [segmentLoop_fuel B s1 i 51 p i s (by omega) (by omega)]
  simp only [segmentLoop]
  by_cases h1 : 16 < i
  · by_cases h2 : 32 < i
    · rw [if_pos h1, if_pos (by omega), if_neg (by omega)]
      simp [h1, h2, Nat.add_assoc]
    · rw [if_pos h1, if_neg (by omega)]
      simp [h1, h2]
  · simp [h1, show ¬ 32 < i by omega]

end Sys2Proof.Machine
end

