-- ==== Sys2Proof/Laws/Put.lean ====
section
/-! SUPPORT. What the put procedure can do (spec 42_put rules R120 to R123): one lemma for each of its parts and
one for the whole. -/

namespace Sys2Proof.Machine

/-- `ABSORB` on a buffer whose first 48 bytes are `T` (R122). -/
theorem absorb_eq {m : Memory} {T : List Byte} (h : readBytes m 0 48 = .ok T) (s1 s2 s3 : Word) (e : Acc) :
    absorb m s1 s2 s3 e = .ok (absorbBlock s1 s2 s3 T 0 e) := by
  have r := fun i hi => memRead_eq_le64 (i := i) h hi
  simp only [Nat.zero_add] at r
  simp [absorb, r, absorbBlock, bind, Except.bind, pure, Except.pure]

/-- `SHIFT` on a buffer whose slack bytes are `bs` (R123). -/
theorem shift_eq {m : Memory} {off : Nat} {bs : List Byte} (h : readBytes m 48 (off - 48) = .ok bs)
    (hl : bs.length ≤ bufSize) : shift m off = .ok (m.writeList 0 bs) := by
  simp [shift, h, storeBytes, hl, bind, Except.bind]

/-- The state an append leaves before a block is settled (R120). -/
def appended (n : Nat) (v : Word) (s : State) : State :=
  { s with
    buf := s.buf.writeList s.off.toNat (valueBytes n v)
    stream := s.stream ++ valueBytes n v
    cnt := s.cnt + BitVec.ofNat 64 n
    status := s.status.setResv false }

/-- An append below the end of the block (R120). -/
theorem append_within {n : Nat} {v : Word} {s : State} (h : s.off.toNat + n ≤ 48) :
    append n v s = .ok { appended n v s with off := BitVec.ofNat 6 (s.off.toNat + n) } := by
  have hs : storeBytes s.buf s.off.toNat (valueBytes n v) = .ok (s.buf.writeList s.off.toNat (valueBytes n v)) :=
    storeBytes_ok_iff.mpr ⟨by simp [bufSize]; omega, rfl⟩
  simp [append, memWrite, hs, settleBlock, show ¬ 48 < s.off.toNat + n by omega, bind, Except.bind, appended]

/-- An append that passes the end of the block absorbs it (R120, R122, R123); `T` is the block, `R` the bytes
beyond it. -/
theorem append_across {n : Nat} {v : Word} {s : State} {T R : List Byte} (hn : n ≤ 8)
    (ho : s.off.toNat ≤ 48) (h : 48 < s.off.toNat + n)
    (hT : readBytes (appended n v s).buf 0 48 = .ok T)
    (hR : readBytes (appended n v s).buf 48 (s.off.toNat + n - 48) = .ok R) :
    append n v s = .ok { setAcc (appended n v s) (absorbBlock s.s1 s.s2 s.s3 T 0 (accs s)) with
      buf := (appended n v s).buf.writeList 0 R
      off := BitVec.ofNat 6 (s.off.toNat + n - 48) } := by
  have hs : storeBytes s.buf s.off.toNat (valueBytes n v) = .ok (appended n v s).buf :=
    storeBytes_ok_iff.mpr ⟨by simp [bufSize]; omega, rfl⟩
  have hl : R.length ≤ bufSize := by rw [(readBytes_ok_iff.mp hR).1]; simp [bufSize]; omega
  have ha := absorb_eq hT s.s1 s.s2 s.s3 (accs s)
  have hsh := shift_eq hR hl
  simp only [append, memWrite, hs, settleBlock, h, if_true, bind, Except.bind, pure, Except.pure]
  simp only [accs] at ha ⊢
  simp only [appended] at ha hsh ⊢
  simp only [ha, hsh]

/-- Everything `PUT(n, v)` can answer with a next state (R120). -/
theorem put_cases {op : Opcode} {n : Nat} {v : Word} {s t : State} (h : put op n v s = .next t) :
    (n = 0 ∧ t = respond rcOk 0 s) ∨
    (n ≠ 0 ∧ 2 ^ 64 ≤ s.cnt.toNat + n ∧ t = raiseFault .countOverflow (opcodeBits op) s) ∨
    (n ≠ 0 ∧ s.cnt.toNat + n < 2 ^ 64 ∧ ∃ u, append n v s = .ok u ∧ t = respond rcOk 0 u) := by
  unfold put at h
  split at h
  · cases h; exact .inl ⟨‹_›, rfl⟩
  · split at h
    · cases h; exact .inr (.inl ⟨‹_›, ‹_›, rfl⟩)
    · split at h
      · cases h; exact .inr (.inr ⟨‹_›, by omega, _, ‹_›, rfl⟩)
      · cases h

/-- Everything a successful append can do (R120): it stores its bytes at `OFF`, and settles the block. -/
theorem append_cases {n : Nat} {v : Word} {s u : State} (h : append n v s = .ok u) :
    (s.off.toNat + n ≤ 48 ∧ u = { appended n v s with off := BitVec.ofNat 6 (s.off.toNat + n) }) ∨
    (48 < s.off.toNat + n ∧ s.off.toNat + n ≤ bufSize ∧ ∃ e m,
      absorb (appended n v s).buf s.s1 s.s2 s.s3 (accs s) = .ok e ∧
      shift (appended n v s).buf (s.off.toNat + n) = .ok m ∧
      u = { setAcc (appended n v s) e with buf := m, off := BitVec.ofNat 6 (s.off.toNat + n - 48) }) := by
  unfold append at h
  simp only [bind, Except.bind, memWrite] at h
  split at h
  · cases h
  · rename_i m hm
    obtain ⟨hb, rfl⟩ := storeBytes_ok_iff.mp hm
    rw [valueBytes_length] at hb
    unfold settleBlock at h
    simp only [bind, Except.bind, pure, Except.pure] at h
    split at h
    · split at h
      · cases h
      · split at h
        · cases h
        · cases h
          exact .inr ⟨‹_›, hb, _, _, ‹_›, ‹_›, rfl⟩
    · cases h
      exact .inl ⟨by omega, rfl⟩

/-- An append leaves the configuration, `RES`, the bound registers, the fault record and the host's lists alone,
whatever else it does. -/
theorem append_frame {n : Nat} {v : Word} {s u : State} (h : append n v s = .ok u) :
    u = { s with
      see0 := u.see0, see1 := u.see1, see2 := u.see2, cnt := s.cnt + BitVec.ofNat 64 n, off := u.off, buf := u.buf
      stream := s.stream ++ valueBytes n v, status := s.status.setResv false } := by
  rcases append_cases h with ⟨_, rfl⟩ | ⟨_, _, e, m, _, _, rfl⟩ <;> rfl

/-- An append keeps the canonical form of the buffer. -/
theorem append_wf {n : Nat} {v : Word} {s u : State} (hw : s.buf.wf = true) (h : append n v s = .ok u) :
    u.buf.wf = true := by
  rcases append_cases h with ⟨ho, rfl⟩ | ⟨_, ho, e, m, _, hm, rfl⟩
  · exact Memory.wf_writeList hw (by rw [valueBytes_length, bufSize]; omega)
  · have hA : (appended n v s).buf.wf = true := Memory.wf_writeList hw (by rwa [valueBytes_length])
    unfold shift at hm
    simp only [bind, Except.bind] at hm
    split at hm
    · cases hm
    · exact storeBytes_wf hA hm

/-- The first bytes of a buffer that holds them. -/
theorem readBytes_of_holds {m : Memory} {n : Nat} {T : List Byte} (hn : n ≤ bufSize) (h : Holds m n T) :
    readBytes m 0 n = .ok T :=
  readBytes_ok_iff.mpr ⟨h.1, fun k hk => ⟨by omega, by rw [Nat.zero_add]; exact h.2 k hk⟩⟩

/-- The buffer after the new bytes are stored holds the old bytes and the new ones. -/
theorem appended_holds {n : Nat} {s : State} {H : List Byte} (v : Word) (hH : Holds s.buf s.off.toNat H) :
    Holds (appended n v s).buf (s.off.toNat + n) (H ++ valueBytes n v) := by
  refine ⟨by simp [hH.1], fun k hk => ?_⟩
  simp only [appended]
  rw [Memory.read_writeList]
  split
  · rw [List.getElem?_append_right (by rw [hH.1]; omega), hH.1]
  · rename_i hx
    simp at hx
    rw [List.getElem?_append_left (by rw [hH.1]; omega)]
    exact hH.2 k (by omega)

/-- An append that passes the end of the block, in terms of the held bytes `H` (R120, R122, R123). -/
theorem append_across_held {n : Nat} {v : Word} {s : State} {H : List Byte} (hn : n ≤ 8)
    (ho : s.off.toNat ≤ 48) (h48 : 48 < s.off.toNat + n) (hH : Holds s.buf s.off.toNat H) :
    append n v s = .ok {
      setAcc (appended n v s)
        (absorbBlock s.s1 s.s2 s.s3 ((H ++ valueBytes n v).take 48) 0 (accs s)) with
      buf := (appended n v s).buf.writeList 0 ((H ++ valueBytes n v).drop 48)
      off := BitVec.ofNat 6 (s.off.toNat + n - 48) } := by
  have hh := appended_holds (n := n) v hH
  apply append_across hn ho h48
  · refine readBytes_ok_iff.mpr ⟨by simp [hH.1]; omega, fun k hk => ⟨by simp [bufSize]; omega, ?_⟩⟩
    rw [Nat.zero_add, hh.2 k (by omega), List.getElem?_take_of_lt hk]
  · refine readBytes_ok_iff.mpr ⟨by simp [hH.1], fun k hk => ⟨by simp [bufSize]; omega, ?_⟩⟩
    rw [hh.2 _ (by omega), List.getElem?_drop]

/-- The held bytes are the last bytes of the stream (10_state rule R42). -/
theorem holds_of_streamInv {s : State} (hi : StreamInv s) :
    Holds s.buf s.off.toNat (s.stream.drop (s.cnt.toNat - s.off.toNat)) := by
  have h1 := hi.count
  have h2 := hi.fill
  have := fillOf_le_self s.cnt.toNat
  exact ⟨by simp; omega, fun k hk => by rw [List.getElem?_drop]; exact hi.held k hk⟩

/-- The length of the stream after an append that does not overflow (R120). -/
theorem cnt_append {c : Word} {n : Nat} (h : c.toNat + n < 2 ^ 64) :
    (c + BitVec.ofNat 64 n).toNat = c.toNat + n := by
  rw [BitVec.toNat_add, BitVec.toNat_ofNat, Nat.mod_eq_of_lt (a := n) (by omega), Nat.mod_eq_of_lt h]

/-- In a state whose engine holds its stream, an append of one to eight bytes that fits the count answers, and
the engine then holds the longer stream (R120; 10_state rules R40 to R44). -/
theorem append_keeps_stream {n : Nat} {s : State} (v : Word) (hi : StreamInv s) (h1 : 1 ≤ n) (h8 : n ≤ 8)
    (hc : s.cnt.toNat + n < 2 ^ 64) : ∃ u, append n v s = .ok u ∧ StreamInv u := by
  have hcount := hi.count
  have hfill := hi.fill
  have hle := fillOf_le s.cnt.toNat
  have hself := fillOf_le_self s.cnt.toNat
  have hcn := cnt_append hc
  have habs := hi.absorbed
  by_cases ho : s.off.toNat + n ≤ 48
  · have hoff : (BitVec.ofNat 6 (s.off.toNat + n)).toNat = s.off.toNat + n := by
      rw [BitVec.toNat_ofNat]; exact Nat.mod_eq_of_lt (by omega)
    refine ⟨_, append_within ho, ?_, ?_, ?_, ?_, ?_⟩ <;> simp only [appended, hcn, hoff]
    · rw [List.length_append, valueBytes_length, hcount]
    · unfold fillOf at *
      split at hfill <;> split <;> omega
    · intro k hk
      rw [Memory.read_writeList]
      split
      · rw [List.getElem?_append_right (by omega)]
        congr 1
        omega
      · rename_i hx
        simp at hx
        rw [List.getElem?_append_left (by omega), hi.held k (by omega)]
        congr 1
        omega
    · intro h48 k hk1 hk2
      have : 48 < s.cnt.toNat := by
        unfold fillOf at hfill
        split at hfill <;> omega
      rw [Memory.read_writeList, if_neg (by simp; omega), hi.kept this k (by omega) hk2,
        List.getElem?_append_left (by omega)]
      congr 1
      omega
    · rw [show s.cnt.toNat + n - (s.off.toNat + n) = s.cnt.toNat - s.off.toNat by omega,
        accAfter_append _ _ _ _ _ _ _ (by omega)]
      exact habs
  · have hH := holds_of_streamInv hi
    have hh := appended_holds (n := n) v hH
    have hoff : (BitVec.ofNat 6 (s.off.toNat + n - 48)).toNat = s.off.toNat + n - 48 := by
      rw [BitVec.toNat_ofNat]; exact Nat.mod_eq_of_lt (by omega)
    have hD : s.stream.drop (s.cnt.toNat - s.off.toNat) ++ valueBytes n v =
        (s.stream ++ valueBytes n v).drop (s.cnt.toNat - s.off.toNat) := by
      rw [List.drop_append_of_le_length (by omega)]
    have hlen := hh.1
    refine ⟨_, append_across_held h8 (by omega) (by omega) hH, ?_, ?_, ?_, ?_, ?_⟩ <;>
      rw [hD] at hh hlen <;> simp only [hD, hoff]
    · simp only [appended, setAcc, hcn, List.length_append, valueBytes_length]
      omega
    · simp only [appended, setAcc, hcn]
      unfold fillOf at *
      split at hfill <;> split <;> omega
    · intro k hk
      rw [Memory.read_writeList, if_pos (by rw [List.length_drop, hlen]; omega), List.getElem?_drop,
        List.getElem?_drop]
      simp only [appended, setAcc, hcn]
      congr 1
      omega
    · intro h48 k hk1 hk2
      rw [Memory.read_writeList, if_neg (by rw [List.length_drop, hlen]; omega), hh.2 k (by omega),
        List.getElem?_drop]
      simp only [appended, setAcc, hcn]
      congr 1
      omega
    · have hb := blocks_of_fill s.cnt.toNat
      have he := fillOf_eq s.cnt.toNat
      simp only [absorbBlock_take (show 0 + 48 ≤ 48 by omega), absorbBlock_drop]
      simp only [appended, setAcc, hcn]
      rw [show (s.cnt.toNat + n - (s.off.toNat + n - 48)) / 48 = (s.cnt.toNat - s.off.toNat) / 48 + 1 by omega,
        accAfter, accAfter_append _ _ _ _ _ _ _ (by omega), ← habs,
        show 48 * ((s.cnt.toNat - s.off.toNat) / 48) = s.cnt.toNat - s.off.toNat by omega]
      rfl

end Sys2Proof.Machine
end

