-- ==== Sys2Proof/Laws/Registers.lean ====
section
/-! SUPPORT. What a read and a write of a register by its index can answer (spec 10_state rules R33, R35). -/

namespace Sys2Proof.Machine

/-- An index reads exactly when it is one of the sixteen (R33). -/
theorem readReg_isSome (s : State) (idx : Byte) : (readReg s idx).isSome = readableIndex idx := by
  unfold readReg readableIndex
  split <;> rename_i hx <;> simp [hx]
  by_contra hc
  obtain ⟨k, hk, he⟩ : ∃ k, k ≤ 15 ∧ idx.toNat = k := ⟨idx.toNat, by omega, rfl⟩
  interval_cases k <;> simp_all

/-- An index is written exactly when it is a configuration register (R33, 30_encoding rule R77). -/
theorem writeReg_isSome (s : State) (idx : Byte) (v : Word) : (writeReg s idx v).isSome = writableIndex idx := by
  unfold writeReg writableIndex
  split <;> rename_i hx <;> simp [hx]
  intro _
  by_contra hc
  have : idx.toNat = 1 ∨ idx.toNat = 2 ∨ idx.toNat = 3 ∨ idx.toNat = 4 ∨ idx.toNat = 5 := by omega
  rcases this with h | h | h | h | h <;> simp_all

/-- A write by index changes the configuration registers alone (41_config rule R101). -/
theorem writeReg_frame {s t : State} {idx : Byte} {v : Word} (h : writeReg s idx v = some t) :
    t = { s with
      cfgSeed := t.cfgSeed, cfgSecret0 := t.cfgSecret0, cfgSecret1 := t.cfgSecret1
      cfgSecret2 := t.cfgSecret2, cfgSecret3 := t.cfgSecret3 } := by
  unfold writeReg at h
  split at h <;> cases h <;> rfl

/-- A response word's two fields are what it was made of (30_encoding rule R72). -/
theorem response_inj {rc rc' : Byte} {d d' : Word} (h : response rc d = response rc' d') : rc = rc' ∧ d = d' := by
  have key := fun i => congrArg (fun x : BitVec (8 + 64) => x.getLsbD i) h
  simp only [response, BitVec.getLsbD_append] at key
  exact ⟨BitVec.eq_of_getLsbD_eq fun i _ => by simpa using key (64 + i),
    BitVec.eq_of_getLsbD_eq fun i hi => by simpa [hi] using key i⟩

end Sys2Proof.Machine
end

