-- ==== Sys2Proof/Laws/SecretGen.lean ====
section
/-! SUPPORT. What the generator's slot can answer, and the acceptance criterion in terms of positions (spec
44_secret_gen rules R160, R165). -/

namespace Sys2Proof.Machine

theorem onesBelow_eq (x : Word) (n : Nat) : onesBelow x n = ((List.range n).filter (fun i => x.getLsbD i)).length := by
  induction n with
  | zero => rfl
  | succ n ih =>
    rw [onesBelow, ih, List.range_succ, List.filter_append, List.length_append]
    cases h : x.getLsbD n <;> simp [h]

/-- The Hamming distance is the number of ones of the xor (R160). -/
theorem popcount_xor (a b : Word) : popcount (a ^^^ b) = hamming a b := by
  rw [popcount, onesBelow_eq, hamming]
  simp only [BitVec.getLsbD_xor, bne]

theorem accepts_iff {prev : List Word} {c : Word} :
    accepts prev c = true ↔ c.getLsbD 0 = true ∧ ∀ p ∈ prev, hamming c p = 32 := by
  simp [accepts, popcount_xor]

/-- The slot's answer is an accepted candidate (R165). -/
theorem genSlot_accepts {P : GenParams} {prev : List Word} {tries : Nat} {r : Word} {x : Word × Word}
    (h : genSlot P prev tries r = some x) : accepts prev x.2 = true := by
  induction tries generalizing r with
  | zero => cases h
  | succ tries ih =>
    unfold genSlot at h
    simp only at h
    split at h
    · cases h; assumption
    · exact ih h

/-- The generator's answer, slot by slot (R165). -/
theorem generate_cases {P : GenParams} {cap : Nat} {seedS : Word} {x : Schedule}
    (h : generate P cap seedS = some x) :
    ∃ r0 r1 r2 r3, genSlot P [] cap seedS = some (r0, x.c0) ∧ genSlot P [x.c0] cap r0 = some (r1, x.c1) ∧
      genSlot P [x.c0, x.c1] cap r1 = some (r2, x.c2) ∧ genSlot P [x.c0, x.c1, x.c2] cap r2 = some (r3, x.c3) := by
  unfold generate at h
  split at h
  · cases h
  · split at h
    · cases h
    · split at h
      · cases h
      · split at h
        · cases h
        · cases h
          exact ⟨_, _, _, _, ‹_›, ‹_›, ‹_›, ‹_›⟩

/-- What `GENSEC` does, in its two cases (R165). -/
theorem gensecWith_some {P : GenParams} {cap : Nat} {seedS : Word} {s : State} {x : Schedule}
    (h : generate P cap seedS = some x) : gensecWith P cap seedS s = respond rcOk 0 (setSecrets s x) := by
  simp [gensecWith, h]

theorem gensecWith_none {P : GenParams} {cap : Nat} {seedS : Word} {s : State}
    (h : generate P cap seedS = none) :
    gensecWith P cap seedS s = raiseFault .genExhausted (opcodeBits .gensec) s := by
  simp [gensecWith, h]

/-- More tries do not change a slot's answer (R165). -/
theorem genSlot_mono {P : GenParams} {prev : List Word} {x : Word × Word} {k k' : Nat} (hk : k ≤ k') :
    ∀ {r : Word}, genSlot P prev k r = some x → genSlot P prev k' r = some x := by
  induction k generalizing k' with
  | zero => intro r h; cases h
  | succ k ih =>
    intro r h
    obtain ⟨k'', rfl⟩ : ∃ k'', k' = k'' + 1 := ⟨k' - 1, by omega⟩
    unfold genSlot at h ⊢
    simp only at h ⊢
    split
    · rename_i ha
      rwa [if_pos ha] at h
    · rename_i ha
      rw [if_neg ha] at h
      exact ih (by omega) h

/-- A schedule generated under one retry cap is generated under every higher one (R165, R167). -/
theorem generate_mono {P : GenParams} {cap cap' : Nat} {seedS : Word} {x : Schedule} (hc : cap ≤ cap')
    (h : generate P cap seedS = some x) : generate P cap' seedS = some x := by
  obtain ⟨r0, r1, r2, r3, g0, g1, g2, g3⟩ := generate_cases h
  simp only [generate, genSlot_mono hc g0, genSlot_mono hc g1, genSlot_mono hc g2, genSlot_mono hc g3]

end Sys2Proof.Machine
end

