-- ==== Sys2Proof/Laws/Exec.lean ====
section
/-! SUPPORT. What a command can answer, said once: a put is the put procedure on its bytes, and every next state
is a success or a fault record (spec 42_put rules R124 to R129, 60_exceptions rule R181); and how a run goes on
after a step. -/

namespace Sys2Proof.Machine

/-- A put command with legal operands is the put procedure on the bytes it appends (42_put rules R124 to
R129). -/
theorem exec_put (i : Instr) (s : State) (hp : isPut i = true) (hw : i.wellFormed = true) :
    ∃ n v, exec i s = put (opcodeOf i) n v s ∧ n ≤ 8 ∧ valueBytes n v = bytesOf i := by
  cases i <;> simp [isPut] at hp
  case put8 v =>
    exact ⟨1, v.setWidth 64, rfl, by omega, by
      rw [valueBytes_setWidth 1 v (by omega) (by omega)]; simp [bytesOf]⟩
  case put16 v =>
    exact ⟨2, v.setWidth 64, rfl, by omega, by rw [valueBytes_setWidth 2 v (by omega) (by omega)]; rfl⟩
  case put32 v =>
    exact ⟨4, v.setWidth 64, rfl, by omega, by rw [valueBytes_setWidth 4 v (by omega) (by omega)]; rfl⟩
  case putc v =>
    exact ⟨2, v.setWidth 64, rfl, by omega, by rw [valueBytes_setWidth 2 v (by omega) (by omega)]; rfl⟩
  case put64 v => exact ⟨8, v, rfl, by omega, rfl⟩
  case putb n v =>
    simp [Instr.wellFormed, legalCount] at hw
    exact ⟨n.toNat, v, by simp [exec, execPutb, show ¬ 8 < n.toNat by omega, opcodeOf], hw, by
      simp only [bytesOf, hw, if_true]; rfl⟩

/-- The two ways a command ends: it responds from a state with the old record (unless it is `RST`), or it takes
a fault and changes the record alone. -/
inductive Retired (i : Instr) (s t : State) : Prop
  | ok (u : State) (d : Word) (eq : t = respond rcOk d u)
      (responses : u.responses = s.responses) (inbox : u.inbox = s.inbox)
      (data : opcodeOf i ≠ .fin → opcodeOf i ≠ .rdreg → d = 0)
      (record : i ≠ .rst → u.status.setResv false = s.status.setResv false)
  | fault (c : FaultCause) (eq : t = raiseFault c (opcodeBits (opcodeOf i)) s)
      (operand : i.wellFormed = true → c ≠ .illegalOperand)

theorem put_retired {op : Opcode} {n : Nat} {v : Word} {s t : State} {i : Instr} (hop : opcodeOf i = op)
    (h : put op n v s = .next t) : Retired i s t := by
  rcases put_cases h with ⟨_, rfl⟩ | ⟨_, _, rfl⟩ | ⟨_, _, u, hu, rfl⟩
  · exact .ok s 0 rfl rfl rfl (fun _ _ => rfl) (fun _ => rfl)
  · exact .fault .countOverflow (by rw [hop]) (fun _ => by decide)
  · have := append_frame hu
    exact .ok u 0 rfl (by rw [this]) (by rw [this]) (fun _ _ => rfl) (fun _ => by rw [this]; rfl)

theorem wrreg_retired {idx : Byte} {v : Word} {s t : State} (h : execWrreg idx v s = .next t) :
    Retired (.wrreg idx v) s t := by
  unfold execWrreg at h
  split at h
  · rename_i u hu
    cases h
    have := writeReg_frame hu
    exact .ok u 0 rfl (by rw [this]) (by rw [this]) (fun _ _ => rfl) (fun _ => by rw [this])
  · rename_i hu
    cases h
    refine .fault .illegalOperand rfl (fun hw => ?_)
    have := writeReg_isSome s idx v
    rw [hu] at this
    exact absurd (hw.symm.trans this.symm) (by simp)

theorem rdreg_retired {idx : Byte} {s t : State} (h : execRdreg idx s = .next t) : Retired (.rdreg idx) s t := by
  unfold execRdreg at h
  split at h
  · cases h
    exact .ok s _ rfl rfl rfl (fun _ h => absurd rfl h) (fun _ => rfl)
  · rename_i hu
    cases h
    refine .fault .illegalOperand rfl (fun hw => ?_)
    have := readReg_isSome s idx
    rw [hu] at this
    exact absurd (hw.symm.trans this.symm) (by simp)

theorem gensec_retired (P : GenParams) (cap : Nat) (x : Word) (s : State) :
    Retired (.gensec x) s (gensecWith P cap x s) := by
  cases hg : generate P cap x with
  | some y =>
    rw [gensecWith_some hg]
    exact .ok (setSecrets s y) 0 rfl rfl rfl (fun _ _ => rfl) (fun _ => rfl)
  | none =>
    rw [gensecWith_none hg]
    exact .fault .genExhausted rfl (fun _ => by decide)

/-- Everything a command can answer with a next state. -/
theorem exec_retired {i : Instr} {s t : State} (h : exec i s = .next t) : Retired i s t := by
  cases i with
  | rst =>
    cases h
    exact .ok (toReset s) 0 rfl rfl rfl (fun _ _ => rfl) (fun h => absurd rfl h)
  | wrreg idx v => exact wrreg_retired h
  | rdreg idx => exact rdreg_retired h
  | defsec =>
    cases h
    exact .ok (setSecrets s _) 0 rfl rfl rfl (fun _ _ => rfl) (fun _ => rfl)
  | gensec x =>
    rw [← Host.Outcome.next.inj h]
    exact gensec_retired _ _ x s
  | init =>
    cases h
    exact .ok (bindEngine s) 0 rfl rfl rfl (fun _ _ => rfl) (fun _ => rfl)
  | fin =>
    obtain ⟨w, _, rfl⟩ := execFin_cases h
    exact .ok _ w rfl rfl rfl (fun h => absurd rfl h) (fun _ => rfl)
  | put8 v => exact put_retired (op := .put8) (n := 1) (v := (v.setWidth 64)) rfl h
  | put16 v => exact put_retired (op := .put16) (n := 2) (v := (v.setWidth 64)) rfl h
  | put32 v => exact put_retired (op := .put32) (n := 4) (v := (v.setWidth 64)) rfl h
  | put64 v => exact put_retired (op := .put64) (n := 8) (v := v) rfl h
  | putc v => exact put_retired (op := .putc) (n := 2) (v := (v.setWidth 64)) rfl h
  | putb n v =>
    simp only [exec, execPutb] at h
    split at h
    · cases h
      refine .fault .illegalOperand rfl (fun hw => ?_)
      simp [Instr.wellFormed, legalCount] at hw
      omega
    · exact put_retired rfl h

/-- A run goes on from the state its first step gives. -/
theorem run_succ (M : Host.Core) (k : Nat) {s t : M.State} (h : M.step s = .next t) :
    M.run (k + 1) s = M.run k t := by
  rw [Host.Core.run, h]

/-- A run in two parts. -/
theorem run_add (M : Host.Core) (j k : Nat) {s t : M.State} (h : M.run j s = .next t) :
    M.run (j + k) s = M.run k t := by
  induction j generalizing s with
  | zero => cases h; simp
  | succ j ih =>
    rw [show j + 1 + k = (j + k) + 1 by omega]
    rw [Host.Core.run] at h ⊢
    split at h
    · exact ih h
    · cases h
    · cases h

end Sys2Proof.Machine
end

