-- ==== Sys2Proof/Laws/PerInstr.lean ====
section
/-! SUPPORT. Statements for every command as syntax, one lemma per constructor. -/

namespace Sys2Proof.Laws.EncodedFields

open Sys2Proof

/-- The encoding of a command carries its opcode and the two operand fields the encoder chose, and nothing
else (30_encoding rule R70). -/
def Statement (i : Instr) : Prop :=
  opField (encode i) = opcodeBits (opcodeOf i) ∧ argField (encode i) = encodedArg i ∧
    dataField (encode i) = encodedData i

/-- The fields of any encoding. -/
theorem fields (i : Instr) : Statement i := by simp [Statement, encode]

theorem rst : Statement .rst := fields _
theorem wrreg (idx : Byte) (v : Word) : Statement (.wrreg idx v) := fields _
theorem rdreg (idx : Byte) : Statement (.rdreg idx) := fields _
theorem defsec : Statement .defsec := fields _
theorem gensec (seedS : Word) : Statement (.gensec seedS) := fields _
theorem init : Statement .init := fields _
theorem put8 (v : BitVec 8) : Statement (.put8 v) := fields _
theorem put16 (v : BitVec 16) : Statement (.put16 v) := fields _
theorem put32 (v : BitVec 32) : Statement (.put32 v) := fields _
theorem put64 (v : BitVec 64) : Statement (.put64 v) := fields _
theorem putc (c : BitVec 16) : Statement (.putc c) := fields _
theorem putb (n : Byte) (v : Word) : Statement (.putb n v) := fields _
theorem fin : Statement .fin := fields _

end Sys2Proof.Laws.EncodedFields
end

