-- ==== Sys2Proof/Tests/Slice0.lean ====
section
/-! SUPPORT. Tests on fixed values, each from the vectors of spec 95_test_vectors or a rule's own example, and
one witness for each statement of Certificates/Slice0/Obligations.lean that has hypotheses. -/

namespace Sys2Proof.Tests

open Sys2Proof Sys2Proof.Machine

/-! ## Helpers -/

/-- The `n`-byte sequence whose byte `i` is `i mod 256` (95_test_vectors, "Ramp(n)"). -/
def ramp (n : Nat) : List Byte := (List.range n).map (BitVec.ofNat 8)

/-- The bytes of a sequence from address `a` up, as a buffer. -/
def cells (a : Nat) (bs : List Byte) : Memory := Memory.writeList [] a bs

/-- The state that holds Ramp(n), `n <= 48`, after reset. -/
def filled (n : Nat) : State :=
  { State.reset with
    cnt := BitVec.ofNat 64 n, off := BitVec.ofNat 6 n, buf := cells 0 (ramp n), stream := ramp n }

/-- The state that holds Ramp(49): the accumulators are those of V21. -/
def full49 : State :=
  { State.reset with
    cnt := 49, off := 1, stream := ramp 49
    buf := cells 0 ([0x30] ++ (ramp 48).drop 1 ++ [0x30])
    see0 := 0xB495B1A91B57784A
    see1 := 0x1CE77F50F1874634
    see2 := 0x28DA0E433D17ABB3 }

/-- `CNT = c` with `o` zero bytes held: the start states of V57 to V61. -/
def counted (c : Word) (o : Nat) : State :=
  { State.reset with cnt := c, off := BitVec.ofNat 6 o, buf := cells 0 (List.replicate 48 0) }

/-- The state after reset with a fault recorded: `STATUS = 0x1522` (V53). -/
def faulted : State := { State.reset with status := ⟨false, true, 2, 0x15⟩ }

def isNext : Host.Outcome State Fault Refusal → Bool
  | .next _ => true
  | .fault _ => false
  | .refused _ => false

theorem next_of_isNext {o : Host.Outcome State Fault Refusal} (h : isNext o = true) : ∃ t, o = .next t := by
  cases o with
  | next t => exact ⟨t, rfl⟩
  | fault f => cases h
  | refused r => cases h

/-- A property of the next state. -/
def after (o : Host.Outcome State Fault Refusal) (p : State → Bool) : Bool :=
  match o with
  | .next t => p t
  | .fault _ => false
  | .refused _ => false

/-- The last response is `{rc, d}`. -/
def answered (rc : Byte) (d : Word) (s : State) : Bool := s.responses.getLast? == some (rc ++ d)

/-- `FIN` at `s` responds with `h`. -/
def finGives (h : Word) (s : State) : Bool := after (exec .fin s) (answered 0 h)

/-! ## Well-formedness (R77) -/

theorem test_wellFormed_wrreg :
    Instr.wellFormed (.wrreg 0 7) = false ∧ Instr.wellFormed (.wrreg 6 5) = false ∧
    Instr.wellFormed (.wrreg 1 0) = true ∧ Instr.wellFormed (.wrreg 5 0) = true := by decide

theorem test_wellFormed_rdreg :
    Instr.wellFormed (.rdreg 0x10) = false ∧ Instr.wellFormed (.rdreg 0x0F) = true := by decide

theorem test_wellFormed_putb :
    Instr.wellFormed (.putb 9 1) = false ∧ Instr.wellFormed (.putb 8 1) = true := by decide

/-! ## Decoding: the words of V70 -/

theorem test_decode_rst : decode 0x01000000000000000000 = .ok .rst := by decide
theorem test_decode_wrreg : decode 0x02040F1E2D3C4B5A6979 = .ok (.wrreg 4 0x0F1E2D3C4B5A6979) := by decide
theorem test_decode_rdreg : decode 0x030A0000000000000000 = .ok (.rdreg 0x0A) := by decide
theorem test_decode_defsec : decode 0x04000000000000000000 = .ok .defsec := by decide
theorem test_decode_gensec : decode 0x050000000000DEADBEEF = .ok (.gensec 0xDEADBEEF) := by decide
theorem test_decode_init : decode 0x08770000000000001234 = .ok .init := by decide
theorem test_decode_put8 : decode 0x10ABFFFFFFFFFFFFFF61 = .ok (.put8 0x61) := by decide
theorem test_decode_put16 : decode 0x11FFDEADBEEF00016261 = .ok (.put16 0x6261) := by decide
theorem test_decode_put32 : decode 0x12000000000064636261 = .ok (.put32 0x64636261) := by decide
theorem test_decode_put64 : decode 0x13000706050403020100 = .ok (.put64 0x0706050403020100) := by decide
theorem test_decode_putc : decode 0x14000000000000003041 = .ok (.putc 0x3041) := by decide
theorem test_decode_putb : decode 0x15050000000403020100 = .ok (.putb 5 0x0403020100) := by decide
theorem test_decode_fin : decode 0x20010000000000000099 = .ok .fin := by decide

/-- The encoder gives the words of V70. -/
theorem test_encode :
    encode (.wrreg 4 0x0F1E2D3C4B5A6979) = 0x02040F1E2D3C4B5A6979 ∧
    encode (.put16 0x6261) = 0x11000000000000006261 ∧
    encode (.putb 5 0x0403020100) = 0x15050000000403020100 ∧
    encode .fin = 0x20000000000000000000 := by decide

/-- V50 to V52: all zeros, all ones, and the value after `PUTB`. -/
theorem test_decode_illegal :
    decode 0x00000000000000000000 = .error (.illegalOpcode 0x00) ∧
    decode 0xFFFFFFFFFFFFFFFFFFFF = .error (.illegalOpcode 0xFF) ∧
    decode 0x16000000000000000000 = .error (.illegalOpcode 0x16) := by decide

/-- `withFetchWord` makes the next step retire the word (V51). -/
theorem test_fetch_word :
    after (step (State.reset.withFetchWord 80 0xFFFFFFFFFFFFFFFFFFFF)) (fun t =>
      t.status.word == 0xFF12 && answered 0x01 0 t && t.inbox.isEmpty) = true := by decide

/-! ## Arithmetic -/

/-- Rows of R94 and V17 to V19. -/
theorem test_mix :
    mix 0xFFFFFFFFFFFFFFFF 2 = 0xFFFFFFFFFFFFFFFF ∧
    mix 0x8000000000000000 0x8000000000000000 = 0x4000000000000000 ∧
    mix 0xDEADBEEFCAFEBABE 0x0123456789ABCDEF = 0x7E4BD22A04F6DD7F ∧
    mix 0x0123456789ABCDEF 0xFEDCBA9876543210 = 0x2317228F48165BB2 := by decide

/-- V10, V11, V12: the empty input, "a" and "abc". -/
theorem test_wyhash_short :
    wyhash64 [] 0 Config.defaultSecret = 0x42BC986DC5EEC4D3 ∧
    wyhash64 [0x61] 1 Config.defaultSecret = 0x84508DC903C31551 ∧
    wyhash64 [0x61, 0x62, 0x63] 2 Config.defaultSecret = 0x0BC54887CFC9ECB1 := by decide

/-- Rows 48, 49 and 96 of V20: no block, one block, one block and two segments. -/
theorem test_wyhash_long :
    wyhash64 (ramp 48) 0 Config.defaultSecret = 0xA0945CF55D2EDC0E ∧
    wyhash64 (ramp 49) 0 Config.defaultSecret = 0x02829DAC9C460ACE ∧
    wyhash64 (ramp 96) 0 Config.defaultSecret = 0xDF127C89875CE87F := by decide +kernel

/-! ## The commands -/

/-- V65: `RST` clears `STATUS` and every register. -/
theorem test_rst :
    after (exec .rst { full49 with status := ⟨true, true, 2, 0x15⟩, cfgSeed := 5 }) (fun t =>
      t.status.word == 0 && t.cnt == 0 && t.off == 0 && t.cfgSeed == 0 && t.stream.isEmpty &&
      t.see1 == 0xA0761D6478BD642F && answered 0 0 t) = true := by decide

theorem test_wrreg :
    after (exec (.wrreg 4 7) State.reset) (fun t =>
      t.cfgSecret2 == 7 && t.cfgSecret1 == 0xE7037ED1A0B428DB && t.s2 == 0x8EBC6AF09C88C6E3 &&
      answered 0 0 t) = true := by decide

/-- V55 and V56: `STATUS` and `RES` are read-only. -/
theorem test_wrreg_readOnly :
    after (exec (.wrreg 0 7) State.reset) (fun t => t.status.word == 0x0222 && answered 2 0 t) = true ∧
    after (exec (.wrreg 6 5) State.reset) (fun t => t.status.word == 0x0222 && answered 2 0 t) = true := by
  decide

/-- Command 3 of P8, and `STATUS = 0x1522`. -/
theorem test_rdreg :
    after (exec (.rdreg 0x0C) State.reset) (answered 0 0xA0761D6478BD642F) = true ∧
    after (exec (.rdreg 0x00) faulted) (answered 0 0x1522) = true := by decide

/-- V54. -/
theorem test_rdreg_illegal :
    after (exec (.rdreg 0x10) State.reset) (fun t => t.status.word == 0x0322 && answered 2 0 t) = true := by decide

theorem test_defsec :
    after (exec .defsec { State.reset with cfgSecret0 := 1, cfgSecret3 := 2 }) (fun t =>
      t.cfgSecret0 == 0xA0761D6478BD642F && t.cfgSecret3 == 0x589965CC75374CC3 && answered 0 0 t) = true := by
  decide

/-- V40 for `seedS = 1`, whose largest count of candidates is 59. -/
theorem test_generate : generate Config.genParams 100 1 =
    some ⟨0x8B66D82B5CCAAC2B, 0xF08D3CC98ECAE895, 0x72B4C64E6A1DCC27, 0x1EE1C995C9C9D187⟩ := by
  decide +kernel

/-- V40 for `seedS = 1`, where slot 0 takes three candidates: with a cap of two it is exhausted, as V62. -/
theorem test_gensec_exhausted :
    answered 4 0 (gensecWith Config.genParams 2 1 State.reset) = true ∧
    (gensecWith Config.genParams 2 1 State.reset).status.word = 0x0542 ∧
    (gensecWith Config.genParams 2 1 State.reset).cfgSecret0 = 0xA0761D6478BD642F := by decide +kernel

/-- The first candidate of `seedS = 0` (V40, R168), and tries 1 and 9 of slot 1. -/
theorem test_candidate :
    (candidate Config.genParams 0).2 = 0x95D49A959CA5A395 ∧
    (candidate Config.genParams (8 * Config.genParams.inc)).2 = 0x53C5CA594BC52E66 ∧
    (candidate Config.genParams (72 * Config.genParams.inc)).2 = 0xB4A9716AC94DA695 := by decide +kernel

/-- Commands 5 and 6 of P8. -/
theorem test_init :
    after (exec .init { full49 with cfgSeed := 1 }) (fun t =>
      t.is == 0xA0761D6478BD642E && t.see2 == 0xA0761D6478BD642E && t.cnt == 0 && t.off == 0 &&
      t.stream.isEmpty && answered 0 0 t) = true := by decide

/-- V64: `INIT` does not clear the fault record. -/
theorem test_init_keeps_fault :
    after (exec .init faulted) (fun t => t.status.word == 0x1522) = true := by decide

/-- V21, `n = 49`: the 49th byte absorbs the block, and the block's bytes stay. -/
theorem test_put8_absorbs :
    after (exec (.put8 0x30) (filled 48)) (fun t =>
      t.see0 == 0xB495B1A91B57784A && t.see1 == 0x1CE77F50F1874634 && t.see2 == 0x28DA0E433D17ABB3 &&
      t.off == 1 && t.cnt == 49 && t.buf == full49.buf) = true := by decide +kernel

/-- V57: the count overflows before anything is written. -/
theorem test_put8_overflow :
    after (exec (.put8 0) (counted 0xFFFFFFFFFFFFFFFF 15)) (fun t =>
      t.status.word == 0x1032 && t.cnt == 0xFFFFFFFFFFFFFFFF && t.off == 15 && answered 3 0 t) = true := by decide

/-- V3: little-endian, for `PUT16`, `PUT32`, `PUT64` and `PUTC` (V4 with one character). -/
theorem test_put16 : after (exec (.put16 0x6261) State.reset) (finGives 0x172BA773B8EBB6D8) = true := by decide
theorem test_put32 : after (exec (.put32 0x12345678) State.reset) (finGives 0x97E19BCD91652958) = true := by decide
theorem test_put64 :
    after (exec (.put64 0x0123456789ABCDEF) State.reset) (finGives 0xEBD7D8B9D9A78C93) = true := by decide
theorem test_putc : after (exec (.putc 0x3041) State.reset) (finGives 0x5B835B85A58208D9) = true := by decide

/-- V58. -/
theorem test_put64_overflow :
    after (exec (.put64 0) (counted 0xFFFFFFFFFFFFFFF8 8)) (fun t =>
      t.status.word == 0x1332 && t.cnt == 0xFFFFFFFFFFFFFFF8 && answered 3 0 t) = true := by decide

/-- V59 and V1. -/
theorem test_putb :
    after (exec (.putb 7 0) (counted 0xFFFFFFFFFFFFFFF8 8)) (fun t =>
      t.status.word == 0 && t.cnt == 0xFFFFFFFFFFFFFFFF && t.off == 15 && answered 0 0 t) = true ∧
    after (exec (.putb 4 0x64636261) State.reset) (finGives 0xE73573B4C2DDFEA0) = true := by decide

/-- V60 and V61: the operand is checked first, and no bytes never overflow. -/
theorem test_putb_order :
    after (exec (.putb 9 0) (counted 0xFFFFFFFFFFFFFFFF 15)) (fun t =>
      t.status.word == 0x1522 && answered 2 0 t) = true ∧
    after (exec (.putb 0 0) (counted 0xFFFFFFFFFFFFFFFF 15)) (fun t =>
      t.status.word == 0 && t.cnt == 0xFFFFFFFFFFFFFFFF && answered 0 0 t) = true := by decide

/-- Rows 3, 8, 16, 33 and 48 of V20: the tail in place. -/
theorem test_fin_in_place :
    finGives 0x99270162F23E47B5 (filled 3) = true ∧ finGives 0x501E4CEBB6D7706A (filled 8) = true ∧
    finGives 0x276BE32B79EB1583 (filled 16) = true ∧ finGives 0x0721D40DC35567CF (filled 33) = true ∧
    finGives 0xA0945CF55D2EDC0E (filled 48) = true := by decide +kernel

/-- Row 49 of V20: the tail wraps into the absorbed block. -/
theorem test_fin_wrapped : finGives 0x02829DAC9C460ACE full49 = true := by decide +kernel

/-! ## The assembler (the examples of R80, and R81 to R83) -/

theorem test_assembler :
    assembleLine "RST" = some [0x01000000000000000000] ∧
    assembleLine "WRREG CFG_SEED, 0x2A # the seed" = some [0x0201000000000000002A] ∧
    assembleLine "GENSEC 7" = some [0x05000000000000000007] ∧
    assembleLine "PUTB 3, 0x636261" = some [0x15030000000000636261] := by decide

/-- A negative operand is sign-extended (R81), and nine bytes take two commands (R83). -/
theorem test_pseudo :
    assembleLine "LDSEC 3, 9" = some [0x02050000000000000009] ∧
    assembleLine "PUTI8 -1" = some [0x1000FFFFFFFFFFFFFFFF] ∧
    expand (.putbytes (ramp 9)) = [0x15080706050403020100, 0x15010000000000000008] := by decide

/-! ## Witnesses for the statements' hypotheses -/

/-- The engine invariants hold of the state of V21 with 49 bytes. -/
theorem witness_streamInv : StreamInv full49 where
  count := by decide
  fill := by decide
  held := by
    have h : ∀ k < 1, full49.buf.read k = full49.stream[full49.cnt.toNat - full49.off.toNat + k]? := by decide
    exact h
  kept := by
    intro _ k _
    have h : ∀ k < 48, 1 ≤ k →
        full49.buf.read k = full49.stream[full49.cnt.toNat - full49.off.toNat - 48 + k]? := by decide
    exact fun hk => h k hk ‹_›
  absorbed := by decide +kernel

/-- StepKeepsTheInvariants, EveryStepRetires, RunsAnswerEveryCommand: the invariants, in a state that has absorbed
a block and in one whose record is set. -/
theorem witness_inv : Inv full49 ∧ Inv { full49 with status := ⟨false, true, 2, 0x15⟩ } :=
  ⟨⟨witness_streamInv, by decide, ⟨fun _ => ⟨rfl, rfl⟩, fun h => absurd h (by decide)⟩⟩,
    ⟨⟨witness_streamInv.count, witness_streamInv.fill, witness_streamInv.held, witness_streamInv.kept,
      witness_streamInv.absorbed⟩, by decide, ⟨fun h => absurd h (by decide), fun _ => by decide⟩⟩⟩

/-- The state of V21 after its `FIN`: `RESV = 1` and `RES` is row 49 of V20. -/
def finished49 : State := { full49 with status := ⟨true, false, 0, 0⟩, res := 0x02829DAC9C460ACE }

/-- StepKeepsTheResultCurrent: its three hypotheses, with `RESV = 1`. -/
theorem witness_resultCurrent :
    Inv finished49 ∧ ResultCurrent finished49 ∧ finished49.status.resv = true ∧
    ∃ t, step (finished49.withFetchWord 80 0x10000000000000000030) = .next t :=
  ⟨⟨⟨witness_streamInv.count, witness_streamInv.fill, witness_streamInv.held, witness_streamInv.kept,
      witness_streamInv.absorbed⟩, by decide, ⟨fun _ => ⟨rfl, rfl⟩, fun h => absurd h (by decide)⟩⟩,
    fun _ => by decide +kernel, rfl, next_of_isNext (by decide +kernel)⟩

/-- DecodingIsByOpAlone: two words that agree in `op`, for a command and for an illegal opcode. -/
theorem witness_decodingIsByOpAlone :
    BitVec.extractLsb' 72 8 0x1503FFFFFFFFFF636261#80 = BitVec.extractLsb' 72 8 0x15030000000000636261#80 ∧
    BitVec.extractLsb' 72 8 0x16000000000000000000#80 = BitVec.extractLsb' 72 8 0x16FF0000000000000001#80 ∧
    opcodeBits .fin = opcodeBits .fin := by decide

/-- IllegalOpcodeIsRejected: the ends of every range. -/
theorem witness_illegalOpcode :
    ∀ op ∈ [0x00, 0x06, 0x07, 0x09, 0x0F, 0x16, 0x1F, 0x21, 0xFF],
      op = 0x00 ∨ op = 0x06 ∨ op = 0x07 ∨ (0x09 ≤ op ∧ op ≤ 0x0F) ∨ (0x16 ≤ op ∧ op ≤ 0x1F) ∨ 0x21 ≤ op := by
  decide

/-- IgnoredFieldsDoNotMatter: operands that differ above the value alone. -/
theorem witness_ignoredFields :
    (0xFF61#64).extractLsb' 0 8 = (0x61#64).extractLsb' 0 8 ∧
    (0xF16261#64).extractLsb' 0 16 = (0x6261#64).extractLsb' 0 16 ∧
    (0xF164636261#64).extractLsb' 0 32 = (0x64636261#64).extractLsb' 0 32 := by decide

/-- PutbIgnoresHighBits, at `n` = 0, 3 and 8. -/
theorem witness_putbHighBits :
    (∀ b, b < 8 * 0 → (0xFFFFFFFFFF636261#64).getLsbD b = (0#64).getLsbD b) ∧
    (∀ b, b < 8 * 3 → (0xFFFFFFFFFF636261#64).getLsbD b = (0x636261#64).getLsbD b) ∧
    (∀ b, b < 8 * 8 → (0xFFFFFFFFFF636261#64).getLsbD b = (0xFFFFFFFFFF636261#64).getLsbD b) := by decide

/-- StepRunsTheDecodedCommand: a word of a command and a word of none. -/
theorem witness_step :
    decode 0x08000000000000000000 = .ok .init ∧
    decode 0x06000000000000000000 = .error (.illegalOpcode 0x06) := by decide

/-- OneResponsePerCommand, FaultChangesOnlyTheRecord: words that respond `OK` with and without data, and words
that fault, with the record clear and set. -/
theorem witness_retireWord :
    after (retireWord 0x08000000000000000000 State.reset) (answered 0 0) = true ∧
    after (retireWord 0x030C0000000000000000 State.reset) (answered 0 0xA0761D6478BD642F) = true ∧
    after (retireWord 0x15090000000000000001 State.reset) (answered 2 0) = true ∧
    after (retireWord 0x00000000000000000000 faulted) (answered 1 0) = true := by decide

/-- NoCommandChangesWhatComesNext, for a command and for the reset. -/
theorem witness_whatComesNext :
    isNext (step { State.reset with inbox := [.command 0x08000000000000000000, .reset] }) = true ∧
    isNext (step { State.reset with inbox := [.reset, .command 0] }) = true := by decide

/-- WrregWritesOneRegister and RdregRespondsWithTheRegister: the ends of their ranges, legal and illegal. -/
theorem witness_registers :
    1 ≤ (1#8).toNat ∧ (1#8).toNat ≤ 5 ∧ 1 ≤ (5#8).toNat ∧ (5#8).toNat ≤ 5 ∧
    ((0#8).toNat < 1 ∨ 5 < (0#8).toNat) ∧ ((6#8).toNat < 1 ∨ 5 < (6#8).toNat) ∧
    (0#8).toNat ≤ 0x0F ∧ (0x0F#8).toNat ≤ 0x0F ∧ 0x0F < (0x10#8).toNat := by decide

/-- IllegalOperandIsRejected, each clause at its boundary. -/
theorem witness_illegalOperand :
    8 < (9#8).toNat ∧ 0x0F < (0x10#8).toNat ∧ (0#8).toNat < 0x01 ∧ 0x05 < (6#8).toNat := by decide

/-- IllegalOperandIsRejected (its last clause), WhoWritesTheBoundRegisters, ConfigurationWaitsForInit, WhoChangesResv,
FaultDoesNotStopTheCore: commands of each kind that answer a next state, in one state. -/
theorem witness_exec :
    (∃ t, exec (.wrreg 1 5) full49 = .next t) ∧ (∃ t, exec .defsec full49 = .next t) ∧
    (∃ t, exec (.gensec 1) full49 = .next t) ∧ (∃ t, exec (.rdreg 1) full49 = .next t) ∧
    (∃ t, exec .rst full49 = .next t) ∧ (∃ t, exec .init full49 = .next t) ∧
    (∃ t, exec (.put8 0x31) full49 = .next t) ∧ (∃ t, exec .fin full49 = .next t) ∧
    Instr.wellFormed (.put8 0x31) = true ∧ isPut (.put8 0x31) = true :=
  ⟨⟨_, rfl⟩, ⟨_, rfl⟩, ⟨_, rfl⟩, ⟨_, rfl⟩, ⟨_, rfl⟩, ⟨_, rfl⟩, next_of_isNext (by decide +kernel),
    next_of_isNext (by decide +kernel), rfl, rfl⟩

/-- WhoChangesResv: a put that changes the stream and one that does not. -/
theorem witness_resv :
    after (exec (.put8 0x31) full49) (fun t => t.stream != full49.stream) = true ∧
    after (exec (.putb 0 0) full49) (fun t => t.stream == full49.stream) = true := by decide +kernel

/-- MixLaws: a product below `2^64` that is not 0, and the ends of the shift's range. -/
theorem witness_mixLaws :
    (0xFFFFFFFF#64).toNat * (0x100000000#64).toNat < 2 ^ 64 ∧ 1 ≤ 1 ∧ 1 ≤ 63 ∧ 63 ≤ 63 := by decide

/-- MemReadIsLittleEndian: a word at the end of the buffer; MemWritePlacesTheBytes: no bytes and eight bytes
there. -/
theorem witness_buffer :
    (8 ≤ 8 ∧ 48 + 8 ≤ 56 ∧ (ramp 8).length = 8 ∧
      ∀ k < 8, (cells 48 (ramp 8)).read (48 + k) = (ramp 8)[k]?) ∧ 0 ≤ 8 ∧ 56 + 0 ≤ 56 := by decide

/-- PutWithinTheBlock: eight bytes that fill the block, and the last byte of it. -/
theorem witness_putWithin :
    (isPut (.put64 0x0123456789ABCDEF) = true ∧ Instr.wellFormed (.put64 0x0123456789ABCDEF) = true ∧
      bytesOf (.put64 0x0123456789ABCDEF) ≠ [] ∧
      (filled 40).off.toNat + (bytesOf (.put64 0x0123456789ABCDEF)).length ≤ 48 ∧
      (filled 40).cnt.toNat + (bytesOf (.put64 0x0123456789ABCDEF)).length < 2 ^ 64) ∧
    (isPut (.putb 1 5) = true ∧ Instr.wellFormed (.putb 1 5) = true ∧ bytesOf (.putb 1 5) ≠ [] ∧
      (filled 47).off.toNat + (bytesOf (.putb 1 5)).length ≤ 48 ∧
      (filled 47).cnt.toNat + (bytesOf (.putb 1 5)).length < 2 ^ 64) := by decide

/-- The buffer of `filled n` holds Ramp(n). -/
theorem holds_of_check {m : Memory} {n : Nat} {T : List Byte} (hl : T.length = n)
    (h : ∀ k < n, m.read k = T[k]?) : Holds m n T := ⟨hl, h⟩

/-- PutAcrossTheBlock: one byte beyond 48 from below, and the full slack from a full block. -/
theorem witness_putAcross :
    (isPut (.put64 7) = true ∧ Instr.wellFormed (.put64 7) = true) ∧
    ((filled 41).off.toNat ≤ 48 ∧ 48 < (filled 41).off.toNat + (bytesOf (.put64 7)).length ∧
      (filled 41).cnt.toNat + (bytesOf (.put64 7)).length < 2 ^ 64 ∧
      Holds (filled 41).buf (filled 41).off.toNat (ramp 41)) ∧
    ((filled 48).off.toNat ≤ 48 ∧ 48 < (filled 48).off.toNat + (bytesOf (.put64 7)).length ∧
      (filled 48).cnt.toNat + (bytesOf (.put64 7)).length < 2 ^ 64 ∧
      Holds (filled 48).buf (filled 48).off.toNat (ramp 48)) :=
  ⟨⟨rfl, rfl⟩, ⟨by decide, by decide, by decide, holds_of_check (by decide) (by decide)⟩,
    ⟨by decide, by decide, by decide, holds_of_check (by decide) (by decide)⟩⟩

/-- CountOverflowRejectsThePut: V57 and V58. -/
theorem witness_overflow :
    isPut (.put8 0) = true ∧ Instr.wellFormed (.put8 0) = true ∧ bytesOf (.put8 0) ≠ [] ∧
    2 ^ 64 ≤ (counted 0xFFFFFFFFFFFFFFFF 15).cnt.toNat + (bytesOf (.put8 0)).length ∧
    isPut (.put64 0) = true ∧ Instr.wellFormed (.put64 0) = true ∧ bytesOf (.put64 0) ≠ [] ∧
    2 ^ 64 ≤ (counted 0xFFFFFFFFFFFFFFF8 8).cnt.toNat + (bytesOf (.put64 0)).length := by decide

/-- PutbCornerCases: the ends of the illegal range. -/
theorem witness_putbCorner : 8 < (9#8).toNat ∧ 8 < (255#8).toNat := by decide

/-- TypeWriteEquivalence. -/
theorem witness_typeWrite :
    isPut (.put32 0x12345678) = true ∧ Instr.wellFormed (.put32 0x12345678) = true ∧ StreamInv full49 ∧
    full49.cnt.toNat + (bytesOf (.put32 0x12345678)).length < 2 ^ 64 ∧
    ∃ t, exec (.put32 0x12345678) full49 = .next t :=
  ⟨rfl, rfl, witness_streamInv, by decide, next_of_isNext (by decide +kernel)⟩

/-- CharacterSequenceEquivalence and PutBytesPseudoInstruction, the latter with a full command and a rest. -/
theorem witness_sequences :
    StreamInv full49 ∧ full49.cnt.toNat + 2 * [0x3041#16].length < 2 ^ 64 ∧
    full49.cnt.toNat + (ramp 9).length < 2 ^ 64 ∧
    0 < ((ramp 9).length + 7) / 8 ∧ 0 < (ramp 9).length / 8 ∧
    1 < ((ramp 9).length + 7) / 8 ∧ ¬ 1 < (ramp 9).length / 8 :=
  ⟨witness_streamInv, by decide, by decide, by decide, by decide, by decide, by decide⟩

/-- ChunkingIndependence: V1's two bytes put at once and one by one. -/
theorem witness_chunking :
    StreamInv full49 ∧
    (∀ i ∈ [Instr.put16 0x6261] ++ [.put8 0x61, .put8 0x62], isPut i = true ∧ i.wellFormed = true) ∧
    bytesOfAll [.put16 0x6261] = bytesOfAll [.put8 0x61, .put8 0x62] ∧
    full49.cnt.toNat + (bytesOfAll [.put16 0x6261]).length < 2 ^ 64 :=
  ⟨witness_streamInv, by decide, by decide, by decide⟩

/-- FinOfAShortStream: 0, 1, 3, 4 and 16 bytes. -/
theorem witness_finShort : ∀ n ∈ [0, 1, 3, 4, 16],
    (filled n).cnt.toNat ≤ 16 ∧ (filled n).off.toNat = (filled n).cnt.toNat ∧
    Holds (filled n).buf (filled n).off.toNat (ramp n) := by
  have h : ∀ n ∈ [0, 1, 3, 4, 16], (filled n).cnt.toNat ≤ 16 ∧
      (filled n).off.toNat = (filled n).cnt.toNat ∧ (ramp n).length = (filled n).off.toNat ∧
      ∀ k < (filled n).off.toNat, (filled n).buf.read k = (ramp n)[k]? := by decide
  exact fun n hn => ⟨(h n hn).1, (h n hn).2.1, holds_of_check (h n hn).2.2.1 (h n hn).2.2.2⟩

/-- FinOfALongStream without kept bytes: `OFF` = 17, 32, 33 and 48. -/
theorem witness_finLong_in_place : ∀ n ∈ [17, 32, 33, 48],
    16 < (filled n).cnt.toNat ∧ (filled n).off.toNat ≤ 48 ∧
    Holds (filled n).buf (filled n).off.toNat (ramp n) ∧ ([] : List Byte).length = 16 - (filled n).off.toNat := by
  have h : ∀ n ∈ [17, 32, 33, 48], 16 < (filled n).cnt.toNat ∧ (filled n).off.toNat ≤ 48 ∧
      (ramp n).length = (filled n).off.toNat ∧
      (∀ k < (filled n).off.toNat, (filled n).buf.read k = (ramp n)[k]?) ∧
      ([] : List Byte).length = 16 - (filled n).off.toNat := by decide
  exact fun n hn => ⟨(h n hn).1, (h n hn).2.1, holds_of_check (h n hn).2.2.1 (h n hn).2.2.2.1, (h n hn).2.2.2.2⟩

/-- FinOfALongStream with kept bytes: V21's 49 bytes, of which 15 are kept. -/
theorem witness_finLong_wrapped :
    16 < full49.cnt.toNat ∧ full49.off.toNat ≤ 48 ∧ Holds full49.buf full49.off.toNat [0x30] ∧
    ((ramp 48).drop 33).length = 16 - full49.off.toNat ∧
    ∀ k < 16 - full49.off.toNat, full49.buf.read (32 + full49.off.toNat + k) = ((ramp 48).drop 33)[k]? :=
  ⟨by decide, by decide, holds_of_check (by decide) (by decide), by decide, by decide⟩

/-- FinIsReadOnlyAndIdempotent, StreamingEqualsOneShot. -/
theorem witness_fin :
    (∃ t, exec .fin full49 = .next t) ∧ StreamInv full49 ∧ 0 ^^^ Config.defaultSecret.c0 = full49.is :=
  ⟨next_of_isNext (by decide +kernel), witness_streamInv, by decide⟩

/-- LengthClasses and ShortStreamsUseTwoSecrets: 17, 48 and 49 bytes. -/
theorem witness_lengths :
    16 < (ramp 17).length ∧ 16 < (ramp 48).length ∧ 16 < (ramp 49).length ∧ (ramp 48).length ≤ 48 := by decide

/-- GensecWritesTheSchedule: the cap of this hardware is above every count `seedS = 1` needs. -/
theorem witness_gensec : ∃ x, generate Config.genParams Config.ssRetryCap 1 = some x :=
  ⟨_, generate_mono (by unfold Config.ssRetryCap; omega) test_generate⟩

/-- GeneratorTakesTheFirstAcceptable, GeneratedScheduleIsValid and GensecExhausted: a seed on which the generator
succeeds, and caps that exhaust it. -/
theorem witness_generator :
    (generate Config.genParams 100 1).isSome = true ∧ generate Config.genParams 0 1 = none ∧
    generate Config.genParams 2 1 = none :=
  ⟨by rw [test_generate]; rfl, by decide, by decide +kernel⟩

/-- FirstFaultStaysRecorded: V63 and V64. -/
theorem witness_firstFault :
    faulted.status.fault = true ∧ (∃ t, retireWord 0x00000000000000000000 faulted = .next t) ∧
    (∃ t, retireWord 0x08000000000000000000 faulted = .next t) ∧
    (∀ i, decode 0x08000000000000000000 = .ok i → i ≠ .rst) := by
  refine ⟨rfl, next_of_isNext (by decide), next_of_isNext (by decide), fun i h => ?_⟩
  have hd : decode 0x08000000000000000000 = .ok .init := by decide
  rw [hd] at h
  cases h
  decide

/-- HashPseudoInstruction and DefaultHashAfterReset. -/
theorem witness_runs :
    (ramp 9).length < 2 ^ 64 ∧
    (∀ i ∈ [Instr.put64 0x0706050403020100], isPut i = true ∧ i.wellFormed = true) ∧
    (bytesOfAll [.put64 0x0706050403020100]).length < 2 ^ 64 := by decide

end Sys2Proof.Tests
end

/-! PROOFS of the statements of 00_scope: what a step runs (O9), and that the ghost `STREAM` decides nothing (O54). -/

namespace Sys2Proof.Machine

/-! ### What a step runs (00_scope rule R12) -/

/-- With nothing presented the state is held (60_exceptions rule R191). -/
theorem step_of_inbox_nil {s : State} (h : s.inbox = []) : step s = .next s := by
  simp [step, stepHost, nextAct, h]

/-- The host's next action is taken off its list and retired. -/
theorem step_of_inbox_cons {s : State} {a : HostAct} {rest : List HostAct} (h : s.inbox = a :: rest) :
    step s = retireAct a { s with inbox := rest } := by
  simp [step, stepHost, nextAct, h]

theorem retireWord_of_decode_ok {w : CommandWord} {i : Instr} (h : decode w = .ok i) (s : State) :
    retireWord w s = exec i s := by
  simp [retireWord, h]

theorem retireWord_of_decode_error {w : CommandWord} {e : DecodeError} (h : decode w = .error e) (s : State) :
    retireWord w s = .next (raiseFault .illegalOpcode (opField w) s) := by
  simp [retireWord, h]

/-- Settles O9: the host's list decides which action is retired, and the decoder what a command word does. -/
theorem stepRunsTheDecodedCommand : Obligations.StepRunsTheDecodedCommand := by
  intro s w rest
  refine ⟨fun i hi => ?_, fun e he => ?_, step_of_inbox_cons (a := .reset) rfl, step_of_inbox_nil rfl⟩
  · exact (step_of_inbox_cons (a := .command w) rfl).trans (retireWord_of_decode_ok hi _)
  · exact (step_of_inbox_cons (a := .command w) rfl).trans (retireWord_of_decode_error he _)

/-! ### The ghost `STREAM` (00_scope rule R10)

Each operation the commands share is shown to commute with replacing the ghost; a command then answers the same
way from both states. -/

/-- Two outcomes that agree but for the ghost: next states that differ in `STREAM` alone, or the same stop of the
model. A refusal is related to nothing, as `Obligations.StreamIsAGhost` asks. -/
inductive SameButStream : Host.Outcome State Fault Refusal → Host.Outcome State Fault Refusal → Prop
  | next (t : State) (g : List Byte) : SameButStream (.next t) (.next { t with stream := g })
  | fault (f : Fault) : SameButStream (.fault f) (.fault f)

theorem nextAct_withStream (s : State) (g : List Byte) :
    nextAct { s with stream := g } = (nextAct s).map fun p => (p.1, { p.2 with stream := g }) := by
  unfold nextAct
  cases s.inbox <;> rfl

theorem readReg_withStream (s : State) (g : List Byte) (idx : Byte) :
    readReg { s with stream := g } idx = readReg s idx := rfl

theorem writeReg_withStream (s : State) (g : List Byte) (idx : Byte) (v : Word) :
    writeReg { s with stream := g } idx v = (writeReg s idx v).map fun t => { t with stream := g } := by
  unfold writeReg
  split <;> rfl

theorem finHash_withStream (s : State) (g : List Byte) : finHash { s with stream := g } = finHash s :=
  finHash_congr rfl rfl rfl rfl rfl

theorem accs_withStream (s : State) (g : List Byte) : accs { s with stream := g } = accs s := rfl

theorem settleBlock_withStream (off : Nat) (s : State) (g : List Byte) :
    settleBlock off { s with stream := g } = (settleBlock off s).map fun t => { t with stream := g } := by
  unfold settleBlock
  split
  · rw [accs_withStream s g]
    cases absorb s.buf s.s1 s.s2 s.s3 (accs s) with
    | error f => rfl
    | ok e => cases shift s.buf off <;> rfl
  · rfl

theorem append_withStream (n : Nat) (v : Word) (s : State) (g : List Byte) :
    append n v { s with stream := g } =
      (append n v s).map fun t => { t with stream := g ++ valueBytes n v } := by
  unfold append
  cases hm : memWrite s.buf s.off.toNat n v with
  | error f => rfl
  | ok m =>
    obtain ⟨_, rfl⟩ := storeBytes_ok_iff.mp hm
    exact settleBlock_withStream (s.off.toNat + n) (appended n v s) (g ++ valueBytes n v)

theorem put_sameButStream (op : Opcode) (n : Nat) (v : Word) (s : State) (g : List Byte) :
    SameButStream (put op n v s) (put op n v { s with stream := g }) := by
  unfold put
  rw [append_withStream n v s g]
  split
  · exact .next (respond rcOk 0 s) g
  · split
    · exact .next (raiseFault .countOverflow (opcodeBits op) s) g
    · cases append n v s with
      | ok t => exact .next (respond rcOk 0 t) _
      | error f => exact .fault f

theorem execWrreg_sameButStream (idx : Byte) (v : Word) (s : State) (g : List Byte) :
    SameButStream (execWrreg idx v s) (execWrreg idx v { s with stream := g }) := by
  unfold execWrreg
  rw [writeReg_withStream s g]
  cases writeReg s idx v with
  | some t => exact .next (respond rcOk 0 t) g
  | none => exact .next (raiseFault .illegalOperand (opcodeBits .wrreg) s) g

theorem execRdreg_sameButStream (idx : Byte) (s : State) (g : List Byte) :
    SameButStream (execRdreg idx s) (execRdreg idx { s with stream := g }) := by
  unfold execRdreg
  rw [readReg_withStream s g]
  cases readReg s idx with
  | some v => exact .next (respond rcOk v s) g
  | none => exact .next (raiseFault .illegalOperand (opcodeBits .rdreg) s) g

theorem gensecWith_sameButStream (P : GenParams) (cap : Nat) (x : Word) (s : State) (g : List Byte) :
    SameButStream (.next (gensecWith P cap x s)) (.next (gensecWith P cap x { s with stream := g })) := by
  cases hg : generate P cap x with
  | some sec =>
    rw [gensecWith_some hg, gensecWith_some hg]
    exact .next (respond rcOk 0 (setSecrets s sec)) g
  | none =>
    rw [gensecWith_none hg, gensecWith_none hg]
    exact .next (raiseFault .genExhausted (opcodeBits .gensec) s) g

theorem execPutb_sameButStream (n : Byte) (v : Word) (s : State) (g : List Byte) :
    SameButStream (execPutb n v s) (execPutb n v { s with stream := g }) := by
  unfold execPutb
  split
  · exact .next (raiseFault .illegalOperand (opcodeBits .putb) s) g
  · exact put_sameButStream .putb n.toNat v s g

theorem execFin_sameButStream (s : State) (g : List Byte) :
    SameButStream (execFin s) (execFin { s with stream := g }) := by
  unfold execFin
  rw [finHash_withStream s g]
  cases finHash s with
  | ok w => exact .next (respond rcOk w { s with res := w, status := s.status.setResv true }) g
  | error f => exact .fault f

/-- No command reads the ghost. `RST` and `INIT` empty it whatever it held. -/
theorem exec_sameButStream (i : Instr) (s : State) (g : List Byte) :
    SameButStream (exec i s) (exec i { s with stream := g }) := by
  cases i with
  | rst => exact .next (respond rcOk 0 (toReset s)) []
  | wrreg idx v => exact execWrreg_sameButStream idx v s g
  | rdreg idx => exact execRdreg_sameButStream idx s g
  | defsec => exact .next (respond rcOk 0 (setSecrets s Config.defaultSecret)) g
  | gensec x => exact gensecWith_sameButStream Config.genParams Config.ssRetryCap x s g
  | init => exact .next (respond rcOk 0 (bindEngine s)) []
  | put8 v => exact put_sameButStream .put8 1 (v.setWidth 64) s g
  | put16 v => exact put_sameButStream .put16 2 (v.setWidth 64) s g
  | put32 v => exact put_sameButStream .put32 4 (v.setWidth 64) s g
  | put64 v => exact put_sameButStream .put64 8 v s g
  | putc c => exact put_sameButStream .putc 2 (c.setWidth 64) s g
  | putb n v => exact execPutb_sameButStream n v s g
  | fin => exact execFin_sameButStream s g

theorem retireAct_sameButStream (a : HostAct) (s : State) (g : List Byte) :
    SameButStream (retireAct a s) (retireAct a { s with stream := g }) := by
  cases a with
  | reset => exact .next (toReset s) []
  | command w =>
    simp only [retireAct]
    cases hd : decode w with
    | ok i =>
      rw [retireWord_of_decode_ok hd, retireWord_of_decode_ok hd]
      exact exec_sameButStream i s g
    | error e =>
      rw [retireWord_of_decode_error hd, retireWord_of_decode_error hd]
      exact .next (raiseFault .illegalOpcode (opField w) s) g

theorem step_sameButStream (s : State) (g : List Byte) :
    SameButStream (step s) (step { s with stream := g }) := by
  unfold step stepHost
  rw [nextAct_withStream s g]
  cases nextAct s with
  | none => exact .next s g
  | some p => exact retireAct_sameButStream p.1 p.2 g

/-- Settles O54: the two outcomes of a step are related by `SameButStream`, and putting the old ghost back into the
second next state gives the first. -/
theorem streamIsAGhost : Obligations.StreamIsAGhost := by
  intro s g
  have h := step_sameButStream s g
  generalize step s = o, step { s with stream := g } = o' at h ⊢
  cases h with
  | next t g' => rfl
  | fault f => rfl

end Sys2Proof.Machine

/-! PROOFS of the statements of 10_state: what comes next (O11), who writes the bound registers and `RESV` (O21, O22,
O48), the reset state (O12, O13, O49), and the invariants between commands along every step (O50, O51). -/

namespace Sys2Proof.Machine

/-! ### What a command can do to the state, said once -/

/-- The commands that write the configuration registers, `RST` aside (10_state rules R31, R32). -/
def isConfig : Instr → Bool
  | .wrreg _ _ | .defsec | .gensec _ => true
  | .rst | .rdreg _ | .init | .put8 _ | .put16 _ | .put32 _ | .put64 _ | .putc _ | .putb _ _ | .fin => false

/-- Every next state a command can answer, by what it writes. -/
inductive Effect (s : State) (i : Instr) : State → Prop
  | rst (hi : i = .rst) : Effect s i (respond rcOk 0 (toReset s))
  | init (hi : i = .init) : Effect s i (respond rcOk 0 (bindEngine s))
  | fin (w : Word) (hi : i = .fin) (hash : finHash s = .ok w) :
      Effect s i (respond rcOk w { s with res := w, status := s.status.setResv true })
  | rdreg (idx : Byte) (d : Word) (hi : i = .rdreg idx) : Effect s i (respond rcOk d s)
  | config (seed : Word) (sec : Schedule) (hi : isConfig i = true)
      (hseed : (∀ idx v, i ≠ .wrreg idx v) → seed = s.cfgSeed) :
      Effect s i (respond rcOk 0 (setSecrets { s with cfgSeed := seed } sec))
  | putNothing (hi : isPut i = true) : Effect s i (respond rcOk 0 s)
  | append (n : Nat) (v : Word) (u : State) (hi : isPut i = true) (hpos : 1 ≤ n) (hle : n ≤ 8)
      (hcnt : s.cnt.toNat + n < 2 ^ 64) (happend : append n v s = .ok u) : Effect s i (respond rcOk 0 u)
  | fault (c : FaultCause) (hi : i ∉ [Instr.rst, .init, .fin]) :
      Effect s i (raiseFault c (opcodeBits (opcodeOf i)) s)

/-- A put with an illegal operand is a `PUTB` of more than eight bytes (30_encoding rule R77). -/
theorem putb_of_illegal_put {i : Instr} (hp : isPut i = true) (hw : i.wellFormed = false) :
    ∃ n v, i = .putb n v ∧ 8 < n.toNat := by
  cases i with
  | putb n v => exact ⟨n, v, rfl, by simpa [Instr.wellFormed, legalCount] using hw⟩
  | put8 _ | put16 _ | put32 _ | put64 _ | putc _ => cases hw
  | rst | wrreg _ _ | rdreg _ | defsec | gensec _ | init | fin => cases hp

theorem not_mem_of_isPut {i : Instr} (hp : isPut i = true) : i ∉ [Instr.rst, .init, .fin] := by
  intro hm
  simp only [List.mem_cons, List.not_mem_nil, or_false] at hm
  rcases hm with rfl | rfl | rfl <;> cases hp

theorem put_effect {i : Instr} {s t : State} (hp : isPut i = true) (h : exec i s = .next t) : Effect s i t := by
  cases hw : i.wellFormed with
  | true =>
    obtain ⟨n, v, he, hn, -⟩ := exec_put i s hp hw
    rw [he] at h
    rcases put_cases h with ⟨-, rfl⟩ | ⟨-, -, rfl⟩ | ⟨h0, hc, u, hu, rfl⟩
    · exact .putNothing hp
    · exact .fault .countOverflow (not_mem_of_isPut hp)
    · exact .append n v u hp (by omega) hn hc hu
  | false =>
    obtain ⟨n, v, rfl, hn⟩ := putb_of_illegal_put hp hw
    simp only [exec, execPutb, if_pos hn] at h
    cases h
    exact .fault .illegalOperand (by simp)

theorem wrreg_effect {idx : Byte} {v : Word} {s t : State} (h : execWrreg idx v s = .next t) :
    Effect s (.wrreg idx v) t := by
  unfold execWrreg at h
  split at h
  · rename_i u hu
    cases h
    rw [writeReg_frame hu]
    exact .config u.cfgSeed (secrets u) rfl (fun hne => absurd rfl (hne idx v))
  · cases h
    exact .fault .illegalOperand (by simp)

theorem rdreg_effect {idx : Byte} {s t : State} (h : execRdreg idx s = .next t) : Effect s (.rdreg idx) t := by
  unfold execRdreg at h
  split at h
  · cases h
    exact .rdreg idx _ rfl
  · cases h
    exact .fault .illegalOperand (by simp)

theorem gensec_effect (P : GenParams) (cap : Nat) (x : Word) (s : State) :
    Effect s (.gensec x) (gensecWith P cap x s) := by
  cases hg : generate P cap x with
  | some sec =>
    rw [gensecWith_some hg]
    exact .config s.cfgSeed sec rfl (fun _ => rfl)
  | none =>
    rw [gensecWith_none hg]
    exact .fault .genExhausted (by simp)

theorem exec_effect {i : Instr} {s t : State} (h : exec i s = .next t) : Effect s i t := by
  cases i with
  | rst => cases h; exact .rst rfl
  | wrreg idx v => exact wrreg_effect h
  | rdreg idx => exact rdreg_effect h
  | defsec => cases h; exact .config s.cfgSeed Config.defaultSecret rfl (fun _ => rfl)
  | gensec x =>
    rw [← Host.Outcome.next.inj h]
    exact gensec_effect _ _ x s
  | init => cases h; exact .init rfl
  | fin =>
    obtain ⟨w, hw, rfl⟩ := execFin_cases h
    exact .fin w rfl hw
  | put8 _ | put16 _ | put32 _ | put64 _ | putc _ | putb _ _ => exact put_effect rfl h

/-! ### The engine's frame -/

/-- Two states with the same computation in progress: stream, buffer, accumulators and bound registers. -/
structure SameEngine (s t : State) : Prop where
  cnt : t.cnt = s.cnt
  off : t.off = s.off
  buf : t.buf = s.buf
  stream : t.stream = s.stream
  accs : accs t = accs s
  is : t.is = s.is
  s1 : t.s1 = s.s1
  s2 : t.s2 = s.s2
  s3 : t.s3 = s.s3

theorem sameEngine_respond (rc : Byte) (d : Word) (s : State) : SameEngine s (respond rc d s) := by
  constructor <;> rfl

theorem sameEngine_raiseFault (c : FaultCause) (op : Byte) (s : State) : SameEngine s (raiseFault c op s) := by
  constructor <;> rfl

theorem sameEngine_config (seed : Word) (sec : Schedule) (s : State) :
    SameEngine s (respond rcOk 0 (setSecrets { s with cfgSeed := seed } sec)) := by
  constructor <;> rfl

theorem sameEngine_fin (w : Word) (s : State) :
    SameEngine s (respond rcOk w { s with res := w, status := s.status.setResv true }) := by
  constructor <;> rfl

/-- Only `RST`, `INIT` and the puts touch the computation in progress (10_state rules R22 to R27). -/
theorem Effect.sameEngine {s t : State} {i : Instr} (h : Effect s i t) (hr : i ≠ .rst) (hn : i ≠ .init)
    (hp : isPut i = false) : SameEngine s t := by
  cases h with
  | rst hi => exact absurd hi hr
  | init hi => exact absurd hi hn
  | fin w => exact sameEngine_fin w s
  | rdreg _ d => exact sameEngine_respond rcOk d s
  | config seed sec => exact sameEngine_config seed sec s
  | putNothing hi | append _ _ _ hi => rw [hp] at hi; cases hi
  | fault c => exact sameEngine_raiseFault c _ s

/-- The bound registers are written only by `INIT` and `RST` (10_state rules R23, R24). -/
theorem Effect.bound {s t : State} {i : Instr} (h : Effect s i t) (hr : i ≠ .rst) (hn : i ≠ .init) :
    t.is = s.is ∧ t.s1 = s.s1 ∧ t.s2 = s.s2 ∧ t.s3 = s.s3 := by
  cases h with
  | rst hi => exact absurd hi hr
  | init hi => exact absurd hi hn
  | append _ _ u _ _ _ _ hu =>
    rw [append_frame hu]
    exact ⟨rfl, rfl, rfl, rfl⟩
  | fin | rdreg | config | putNothing | fault => exact ⟨rfl, rfl, rfl, rfl⟩

/-- The configuration is written only by `WRREG`, `DEFSEC`, `GENSEC` and `RST` (10_state rules R31, R32). -/
theorem Effect.configuration {s t : State} {i : Instr} (h : Effect s i t) (hr : i ≠ .rst)
    (hc : isConfig i = false) : t.cfgSeed = s.cfgSeed ∧ secrets t = secrets s := by
  cases h with
  | rst hi => exact absurd hi hr
  | config _ _ hi => rw [hc] at hi; cases hi
  | append _ _ u _ _ _ _ hu =>
    rw [append_frame hu]
    exact ⟨rfl, rfl⟩
  | init | fin | rdreg | putNothing | fault => exact ⟨rfl, rfl⟩

/-- Of the configuration commands only `WRREG` writes the seed (41_config rule R103, 44_secret_gen rule R165). -/
theorem Effect.cfgSeed {s t : State} {i : Instr} (h : Effect s i t) (hr : i ≠ .rst)
    (hw : ∀ idx v, i ≠ .wrreg idx v) : t.cfgSeed = s.cfgSeed := by
  cases hc : isConfig i with
  | false => exact (h.configuration hr hc).1
  | true =>
    cases h with
    | config seed sec _ hseed => exact hseed hw
    | rst hi => exact absurd hi hr
    | append _ _ u _ _ _ _ hu => rw [append_frame hu]; rfl
    | init | fin | rdreg | putNothing | fault => rfl

/-- An append clears `RESV` (42_put rule R120). -/
theorem append_resv {n : Nat} {v : Word} {s u : State} (h : append n v s = .ok u) : u.status.resv = false := by
  rw [append_frame h]
  rfl

theorem append_stream_ne {n : Nat} {v : Word} {s u : State} (hpos : 1 ≤ n) (h : append n v s = .ok u) :
    u.stream ≠ s.stream := by
  have hs : u.stream = s.stream ++ valueBytes n v := by rw [append_frame h]
  intro he
  have hl := congrArg List.length (hs.symm.trans he)
  simp only [List.length_append, valueBytes_length] at hl
  omega

/-- A command that is none of `FIN`, `INIT`, `RST` and leaves the stream as it is leaves `RESV` too (10_state rule
R35). -/
theorem Effect.resv_of_stream_eq {s t : State} {i : Instr} (h : Effect s i t) (hf : i ≠ .fin) (hn : i ≠ .init)
    (hr : i ≠ .rst) (hs : t.stream = s.stream) : t.status.resv = s.status.resv := by
  cases h with
  | rst hi => exact absurd hi hr
  | init hi => exact absurd hi hn
  | fin _ hi => exact absurd hi hf
  | append _ _ _ _ hpos _ _ hu => exact (append_stream_ne hpos hu hs).elim
  | fault c => exact record_resv s.status c _
  | rdreg | config | putNothing => rfl

/-- Whatever changes the stream clears `RESV` (10_state rule R35). -/
theorem Effect.resv_of_stream_ne {s t : State} {i : Instr} (h : Effect s i t)
    (hs : t.stream ≠ s.stream) : t.status.resv = false := by
  cases h with
  | append _ _ _ _ _ _ _ hu => exact (append_resv hu :)
  | rst | init => rfl
  | fin | rdreg | config | putNothing | fault => exact absurd rfl hs

/-! ### Who writes what (10_state rules R23, R24, R31, R32, R35) -/

theorem not_isConfig_of_isPut {i : Instr} (hp : isPut i = true) : isConfig i = false := by
  cases i with
  | wrreg _ _ | defsec | gensec _ => cases hp
  | rst | rdreg _ | init | fin | put8 _ | put16 _ | put32 _ | put64 _ | putc _ | putb _ _ => rfl

/-- Settles O21: each clause is the frame of one group of registers, read off `exec_effect`. -/
theorem whoWritesTheBoundRegisters : Obligations.WhoWritesTheBoundRegisters := by
  intro i s t h
  have he := exec_effect h
  refine ⟨fun hn hr => he.bound hr hn, fun hi => ?_, fun hi => ?_, fun hi => ?_⟩
  · rcases hi with hp | rfl | rfl | ⟨idx, rfl⟩
    · exact he.configuration (fun hr => not_mem_of_isPut hp (by simp [hr])) (not_isConfig_of_isPut hp)
    · exact he.configuration (by simp) rfl
    · exact he.configuration (by simp) rfl
    · exact he.configuration (by simp) rfl
  · rcases hi with rfl | ⟨x, rfl⟩ <;> exact he.cfgSeed (by simp) (by simp)
  · have hse : SameEngine s t := by
      rcases hi with ⟨idx, v, rfl⟩ | rfl | ⟨x, rfl⟩ | ⟨idx, rfl⟩ | rfl <;>
        exact he.sameEngine (by simp) (by simp) rfl
    exact ⟨hse.accs, hse.cnt, hse.off, hse.buf, hse.stream⟩

theorem SameEngine.finHash_eq {s t : State} (h : SameEngine s t) : finHash t = finHash s :=
  finHash_congr h.cnt h.off h.buf h.accs h.s1

theorem execFin_of_finHash {s : State} {w : Word} (h : finHash s = .ok w) :
    execFin s = .next (respond rcOk w { s with res := w, status := s.status.setResv true }) := by
  simp [execFin, h]

/-- Settles O22: a configuration command leaves the computation in progress alone, and `FIN` reads nothing else. -/
theorem configurationWaitsForInit : Obligations.ConfigurationWaitsForInit := by
  intro i s t u hi h hfin
  have hse : SameEngine s t := by
    rcases hi with ⟨idx, v, rfl⟩ | rfl | ⟨x, rfl⟩ <;>
      exact (exec_effect h).sameEngine (by simp) (by simp) rfl
  obtain ⟨w, hw, rfl⟩ := execFin_cases hfin
  exact ⟨_, execFin_of_finHash (hse.finHash_eq.trans hw), rfl, by simp⟩

/-- Settles O48: only a put that appends changes the stream outside `INIT` and `RST`, and it clears `RESV`. -/
theorem whoChangesResv : Obligations.WhoChangesResv := by
  intro i s t h
  have he := exec_effect h
  refine ⟨?_, ?_, fun _ => he.resv_of_stream_ne, he.resv_of_stream_eq⟩
  · rintro rfl
    obtain ⟨w, -, rfl⟩ := execFin_cases h
    rfl
  · rintro (rfl | rfl) <;> cases h <;> rfl

/-! ### What comes next (10_state rule R30) -/

theorem exec_inbox {i : Instr} {s t : State} (h : exec i s = .next t) : t.inbox = s.inbox := by
  cases exec_retired h with
  | ok u d eq _ inbox => rw [eq, respond_inbox, inbox]
  | fault c eq => rw [eq, raiseFault_inbox]

theorem retireWord_inbox {w : CommandWord} {s t : State} (h : retireWord w s = .next t) : t.inbox = s.inbox := by
  cases hd : decode w with
  | ok i => exact exec_inbox ((retireWord_of_decode_ok hd s).symm.trans h)
  | error e =>
    rw [retireWord_of_decode_error hd] at h
    cases h
    rfl

/-- Settles O11: a step takes one action off the list before it retires it, and no action writes the list. -/
theorem noCommandChangesWhatComesNext : Obligations.NoCommandChangesWhatComesNext := by
  intro s t a rest h
  rw [step_of_inbox_cons (a := a) (rest := rest) rfl] at h
  cases a with
  | command w => exact retireWord_inbox h
  | reset => cases h; rfl

/-! ### The invariants between commands (10_state section 7) -/

/-- An invariant of every step: it does not speak of the host's list, every reset state has it, and every command
and the illegal opcode keep it. -/
theorem step_keeps {P : State → Prop} (hlist : ∀ s rest, P s → P { s with inbox := rest })
    (hreset : ∀ s, P (toReset s))
    (hillegal : ∀ op s, P s → P (raiseFault .illegalOpcode op s))
    (hexec : ∀ i s t, P s → Effect s i t → P t) {s t : State} (hs : P s) (h : step s = .next t) : P t := by
  cases hin : s.inbox with
  | nil =>
    rw [step_of_inbox_nil hin] at h
    cases h
    exact hs
  | cons a rest =>
    rw [step_of_inbox_cons hin] at h
    cases a with
    | reset => cases h; exact hreset _
    | command w =>
      simp only [retireAct] at h
      cases hd : decode w with
      | ok i =>
        rw [retireWord_of_decode_ok hd] at h
        exact hexec i _ t (hlist s rest hs) (exec_effect h)
      | error e =>
        rw [retireWord_of_decode_error hd] at h
        cases h
        exact hillegal _ _ (hlist s rest hs)

theorem SameEngine.streamInv {s t : State} (h : SameEngine s t) (hi : StreamInv s) : StreamInv t where
  count := by rw [h.cnt, h.stream]; exact hi.count
  fill := by rw [h.cnt, h.off]; exact hi.fill
  held := by rw [h.cnt, h.off, h.buf, h.stream]; exact hi.held
  kept := by rw [h.cnt, h.off, h.buf, h.stream]; exact hi.kept
  absorbed := by rw [h.accs, h.cnt, h.off, h.stream, h.is, h.s1, h.s2, h.s3]; exact hi.absorbed

/-- A fresh computation holds the empty stream. -/
theorem streamInv_of_fresh {s : State} (hs : s.stream = []) (hc : s.cnt = 0) (ho : s.off = 0)
    (ha : accs s = ⟨s.is, s.is, s.is⟩) : StreamInv s where
  count := by simp [hs, hc]
  fill := by simp [hc, ho, fillOf]
  held := by simp [ho]
  kept := by simp [hc]
  absorbed := by simp [ha, hc, accAfter]

theorem recordInv_reset : RecordInv State.reset.status := ⟨fun _ => ⟨rfl, rfl⟩, fun h => absurd h (by decide)⟩

theorem recordInv_setResv {st : Status} (b : Bool) (h : RecordInv st) : RecordInv (st.setResv b) :=
  ⟨h.quiet, h.coded⟩

theorem code_bounds (c : FaultCause) : 1 ≤ c.code.toNat ∧ c.code.toNat ≤ 4 := by
  cases c <;> decide

/-- Taking a fault keeps the record consistent: the first is recorded with its code, a later one changes nothing
(60_exceptions rules R181, R185). -/
theorem recordInv_record {st : Status} (c : FaultCause) (op : Byte) (h : RecordInv st) :
    RecordInv (st.record c op) := by
  cases hf : st.fault with
  | true => rwa [record_of_fault c op hf]
  | false =>
    rw [record_of_quiet c op hf]
    exact ⟨fun hq => (Bool.noConfusion hq), fun _ => code_bounds c⟩

/-- What leaves the computation in progress alone keeps the invariants if it keeps the record consistent. -/
theorem SameEngine.inv {s t : State} (h : SameEngine s t) (hi : Inv s) (hr : RecordInv t.status) : Inv t :=
  ⟨h.streamInv hi.engine, by rw [h.buf]; exact hi.form, hr⟩

theorem inv_raiseFault {s : State} (c : FaultCause) (op : Byte) (hi : Inv s) : Inv (raiseFault c op s) :=
  (sameEngine_raiseFault c op s).inv hi (recordInv_record c op hi.record)

theorem inv_respond {s : State} (rc : Byte) (d : Word) (hi : Inv s) : Inv (respond rc d s) :=
  (sameEngine_respond rc d s).inv hi hi.record

theorem inv_withInbox (s : State) (rest : List HostAct) (hi : Inv s) : Inv { s with inbox := rest } :=
  SameEngine.inv (s := s) (by constructor <;> rfl) hi hi.record

theorem inv_reset : Inv State.reset := ⟨streamInv_of_fresh rfl rfl rfl rfl, rfl, recordInv_reset⟩

theorem inv_toReset (s : State) : Inv (toReset s) := ⟨streamInv_of_fresh rfl rfl rfl rfl, rfl, recordInv_reset⟩

theorem inv_bindEngine {s : State} (hi : Inv s) : Inv (bindEngine s) :=
  ⟨streamInv_of_fresh rfl rfl rfl rfl, hi.form, recordInv_setResv false hi.record⟩

theorem inv_append {n : Nat} {v : Word} {s u : State} (hi : Inv s) (hpos : 1 ≤ n) (hle : n ≤ 8)
    (hcnt : s.cnt.toNat + n < 2 ^ 64) (h : append n v s = .ok u) : Inv u := by
  obtain ⟨u', hu', hinv⟩ := append_keeps_stream v hi.engine hpos hle hcnt
  obtain rfl : u' = u := Except.ok.inj (hu'.symm.trans h)
  have hst : u'.status = s.status.setResv false := by rw [append_frame h]
  exact ⟨hinv, append_wf hi.form h, by rw [hst]; exact recordInv_setResv false hi.record⟩

theorem Effect.inv {s t : State} {i : Instr} (h : Effect s i t) (hi : Inv s) : Inv t := by
  cases h with
  | rst => exact inv_respond rcOk 0 (inv_toReset s)
  | init => exact inv_respond rcOk 0 (inv_bindEngine hi)
  | fin w => exact (sameEngine_fin w s).inv hi (recordInv_setResv true hi.record)
  | rdreg _ d => exact inv_respond rcOk d hi
  | config seed sec => exact (sameEngine_config seed sec s).inv hi hi.record
  | putNothing => exact inv_respond rcOk 0 hi
  | append n v u _ hpos hle hcnt hu => exact inv_respond rcOk 0 (inv_append hi hpos hle hcnt hu)
  | fault c => exact inv_raiseFault c _ hi

/-- Settles O50: the append is the one command with work to do (`append_keeps_stream`); a reset or `INIT` starts a
fresh computation, and every other command leaves the computation in progress alone. -/
theorem stepKeepsTheInvariants : Obligations.StepKeepsTheInvariants := fun _ _ hi h =>
  step_keeps inv_withInbox inv_toReset (fun op _ => inv_raiseFault .illegalOpcode op)
    (fun _ _ _ hi he => he.inv hi) hi h

/-! ### `FIN` gives the reference hash (43_finalize rule R145) -/

/-- The bytes before the held ones fill the absorbed blocks (10_state rule R41). -/
theorem blockCount_mul (n : Nat) : 48 * blockCount n = n - fillOf n := by
  unfold blockCount fillOf
  split <;> omega

/-- The long branch of the reference function, block loop done: the fill of the whole length is left. -/
theorem longABS_eq (B : List Byte) (s s1 s2 s3 : Word) :
    longABS B s s1 s2 s3 =
      (le64 B (B.length - 16), le64 B (B.length - 8),
        segmentLoop B s1 (fillOf B.length) (B.length - fillOf B.length) (fillOf B.length)
          (if 48 < B.length then (accAfter s1 s2 s3 B (blockCount B.length) ⟨s, s, s⟩).fold else s)) := by
  have hb := blockLoop_eq B s1 s2 s3 ⟨s, s, s⟩ B.length 0 B.length le_rfl
  have hf := fillOf_eq B.length
  simp only [Nat.mul_zero, accAfter, Nat.zero_add, ← hf] at hb
  simp only [longABS, hb, blockCount_mul]

/-- The reference function on at most 16 bytes (43_finalize rule R140). -/
theorem wyhash64_short {B : List Byte} (seed : Word) (x : Schedule) (h : B.length ≤ 16) :
    wyhash64 B seed x =
      finish (shortAB B B.length).1 (shortAB B B.length).2 (seed ^^^ x.c0) (BitVec.ofNat 64 B.length) x.c1 := by
  simp [wyhash64, h]

/-- The reference function on more than 16 bytes (43_finalize rule R140). -/
theorem wyhash64_long {B : List Byte} (seed : Word) (x : Schedule) (h : 16 < B.length) :
    wyhash64 B seed x =
      finish (longABS B (seed ^^^ x.c0) x.c1 x.c2 x.c3).1 (longABS B (seed ^^^ x.c0) x.c1 x.c2 x.c3).2.1
        (longABS B (seed ^^^ x.c0) x.c1 x.c2 x.c3).2.2 (BitVec.ofNat 64 B.length) x.c1 := by
  simp [wyhash64, show ¬ B.length ≤ 16 by omega]

section
variable {s : State} (hi : StreamInv s)
include hi

theorem StreamInv.cnt_eq : s.cnt = BitVec.ofNat 64 s.stream.length := by
  rw [← hi.count, BitVec.ofNat_toNat, BitVec.setWidth_eq]

theorem StreamInv.off_eq : s.off.toNat = fillOf s.stream.length := hi.count ▸ hi.fill

/-- The held bytes read as the last bytes of the stream (10_state rule R42). -/
theorem StreamInv.readBytes_held :
    readBytes s.buf 0 s.off.toNat = .ok (s.stream.drop (s.stream.length - s.off.toNat)) := by
  have hoff := hi.off_eq
  have hle := fillOf_le s.stream.length
  rw [← hi.count]
  exact readBytes_of_holds (by rw [bufSize]; omega) (holds_of_streamInv hi)

/-- The accumulators are those of the blocks before the held bytes (10_state rule R43). -/
theorem StreamInv.accs_eq :
    accs s = accAfter s.s1 s.s2 s.s3 s.stream (blockCount s.stream.length) ⟨s.is, s.is, s.is⟩ := by
  rw [hi.absorbed, hi.count, hi.off_eq, blocks_of_fill]

/-- Until a block is absorbed the accumulators are the bound seed. -/
theorem StreamInv.see0_of_short (h : s.stream.length ≤ 48) : s.see0 = s.is := by
  have ha := hi.accs_eq
  rw [blockCount, if_pos h] at ha
  exact congrArg Acc.e0 ha

/-- The seed the segments start from is the reference function's (43_finalize rule R144). -/
theorem StreamInv.folded_eq :
    (if 48 < s.stream.length then (accs s).fold else s.see0) =
      if 48 < s.stream.length then
        (accAfter s.s1 s.s2 s.s3 s.stream (blockCount s.stream.length) ⟨s.is, s.is, s.is⟩).fold
      else s.is := by
  split
  · rw [hi.accs_eq]
  · exact hi.see0_of_short (by omega)

/-- The bytes kept of the last absorbed block, from address `a` to its end (10_state rule R44). -/
theorem StreamInv.readBytes_kept {a n : Nat} (h48 : 48 < s.stream.length) (ha : s.off.toNat ≤ a)
    (hn : a + n = 48) :
    readBytes s.buf a n = .ok ((s.stream.drop (s.stream.length - s.off.toNat - n)).take n) := by
  have hoff := hi.off_eq
  have hc := hi.count
  have hb := fillOf_eq s.stream.length
  have hpos : 0 < blockCount s.stream.length := by rw [blockCount_succ h48]; omega
  refine readBytes_ok_iff.mpr ⟨by simp; omega, fun k hk => ⟨by rw [bufSize]; omega, ?_⟩⟩
  rw [hi.kept (by omega) (a + k) (by omega) (by omega), List.getElem?_take_of_lt hk, List.getElem?_drop]
  congr 1
  omega

/-- The tail of `FIN` is the last 16 bytes of the stream (43_finalize rule R144). -/
theorem StreamInv.finTail_eq (h : 16 < s.stream.length) :
    finTail s.buf s.off.toNat = .ok (s.stream.drop (s.stream.length - 16)) := by
  have hoff := hi.off_eq
  have hself := fillOf_le_self s.stream.length
  by_cases ho : 16 ≤ s.off.toNat
  · rw [finTail_in_place hi.readBytes_held ho, List.drop_drop]
    congr 2
    omega
  · have h48 : 48 < s.stream.length := by
      unfold fillOf at hoff
      split at hoff <;> omega
    rw [finTail_wrapped hi.readBytes_held (hi.readBytes_kept h48 (by omega) (by omega)) (by omega)]
    have hsplit := List.take_append_drop (16 - s.off.toNat) (s.stream.drop (s.stream.length - 16))
    rw [List.drop_drop] at hsplit
    rw [← hsplit]
    congr 4 <;> omega

/-- The hash `FIN` computes is the reference function of the stream under the bound seed and schedule. -/
theorem StreamInv.finHash_eq : finHash s = .ok (wyhash64 s.stream s.is (boundSchedule s)) := by
  have hc := hi.count
  have hoff := hi.off_eq
  have hread := hi.readBytes_held
  have hbound : s.is ^^^ (boundSchedule s).c0 = s.is := BitVec.xor_zero
  by_cases h16 : s.stream.length ≤ 16
  · have hfull : s.off.toNat = s.stream.length := by rw [hoff, fillOf, if_pos (by omega)]
    rw [hfull, Nat.sub_self, List.drop_zero, ← hfull] at hread
    rw [wyhash64_short _ _ h16, finHash_short (by omega) hread, hbound, hfull,
      hi.see0_of_short (by omega), ← hi.cnt_eq]
    rfl
  · rw [wyhash64_long _ _ (by omega), finHash_long (by omega) hread (hi.finTail_eq (by omega)), hbound,
      longABS_eq, segmentLoop_drop, le64_drop, le64_drop, hc, hoff, hi.folded_eq, ← hi.cnt_eq, Nat.add_zero,
      Nat.add_zero, show s.stream.length - 16 + 8 = s.stream.length - 8 by omega]
    rfl

end

theorem SameEngine.boundSchedule_eq {s t : State} (h : SameEngine s t) : boundSchedule t = boundSchedule s := by
  rw [boundSchedule, boundSchedule, h.s1, h.s2, h.s3]

theorem SameEngine.resultCurrent {s t : State} (h : SameEngine s t) (hres : t.res = s.res)
    (hresv : t.status.resv = s.status.resv) (hr : ResultCurrent s) : ResultCurrent t := by
  intro hv
  rw [hres, h.stream, h.is, h.boundSchedule_eq]
  exact hr (hresv.symm.trans hv)

/-- With `RESV = 0` nothing is promised. -/
theorem resultCurrent_of_resv {s : State} (h : s.status.resv = false) : ResultCurrent s :=
  fun hv => absurd (h.symm.trans hv) (by decide)

theorem resultCurrent_raiseFault {s : State} (c : FaultCause) (op : Byte) (hr : ResultCurrent s) :
    ResultCurrent (raiseFault c op s) :=
  (sameEngine_raiseFault c op s).resultCurrent rfl (record_resv s.status c op) hr

theorem Effect.resultCurrent {s t : State} {i : Instr} (h : Effect s i t) (hi : StreamInv s)
    (hr : ResultCurrent s) : ResultCurrent t := by
  cases h with
  | rst | init => exact resultCurrent_of_resv rfl
  | append _ _ u _ _ _ _ hu => exact resultCurrent_of_resv (append_resv hu :)
  | fin w _ hw => exact fun _ => Except.ok.inj (hw.symm.trans hi.finHash_eq)
  | rdreg _ d => exact (sameEngine_respond rcOk d s).resultCurrent rfl rfl hr
  | config seed sec => exact (sameEngine_config seed sec s).resultCurrent rfl rfl hr
  | putNothing => exact (sameEngine_respond rcOk 0 s).resultCurrent rfl rfl hr
  | fault c => exact resultCurrent_raiseFault c _ hr

/-- Settles O51, with `Inv` carried along: `FIN` sets `RESV` with the hash of the stream in `RES`
(`StreamInv.finHash_eq`), what changes the stream or the bound registers clears it, and the rest leaves both sides of
the promise alone. -/
theorem stepKeepsTheResultCurrent : Obligations.StepKeepsTheResultCurrent := fun _ _ hi hr h =>
  (step_keeps (P := fun s => Inv s ∧ ResultCurrent s)
    (fun s rest hs => ⟨inv_withInbox s rest hs.1, hs.2⟩)
    (fun s => ⟨inv_toReset s, resultCurrent_of_resv rfl⟩)
    (fun op _ hs => ⟨inv_raiseFault _ op hs.1, resultCurrent_raiseFault _ op hs.2⟩)
    (fun _ _ _ hs he => ⟨he.inv hs.1, he.resultCurrent hs.1.engine hs.2⟩) ⟨hi, hr⟩ h).2

/-! ### The reset state (10_state rule R46) -/

/-- Settles O12: with `RESET_SEED = 0` the bound seed is `DEFAULT_SECRET[0]` itself. -/
theorem resetValues : Obligations.ResetValues := by
  have hseed : Config.resetSeed ^^^ Config.defaultSecret.c0 = Config.defaultSecret.c0 := BitVec.zero_xor
  exact ⟨rfl, rfl, rfl, hseed, rfl, rfl, rfl, rfl, rfl, rfl, rfl, rfl, rfl, rfl, rfl, rfl, rfl⟩

/-- Settles O13: the three commands complete in every state and write every register the reset writes. -/
theorem resetEqualsDefaultInit : Obligations.ResetEqualsDefaultInit := fun _ =>
  ⟨_, _, _, rfl, rfl, rfl, rfl⟩

/-- Settles O49: the reset state is a fresh computation with a clear record. -/
theorem resetSatisfiesTheInvariants : Obligations.ResetSatisfiesTheInvariants :=
  ⟨inv_reset, resultCurrent_of_resv rfl⟩

end Sys2Proof.Machine

/-! PROOFS of the statements of 20_memory: what a read and a write of the buffer do (O25, O26), and that no access of
a step leaves the buffer or reads an unwritten byte (O52). -/

namespace Sys2Proof.Machine

/-! ### `MemRead` (20_memory rule R52) -/

/-- The little-endian number as the sum R52 writes. -/
theorem leNat_eq_sum (T : List Byte) :
    leNat T = ((List.range T.length).map fun k => (T.getD k 0).toNat * 2 ^ (8 * k)).sum := by
  induction T with
  | nil => rfl
  | cons b T ih =>
    have hshift : ∀ k, ((b :: T).getD (k + 1) 0).toNat * 2 ^ (8 * (k + 1)) =
        256 * ((T.getD k 0).toNat * 2 ^ (8 * k)) := by
      intro k
      rw [List.getD_cons_succ]
      ring
    rw [leNat, ih, ← List.sum_map_mul_left, List.length_cons, List.range_succ_eq_map, List.map_cons, List.sum_cons,
      List.map_map]
    simp only [Function.comp_def, Nat.succ_eq_add_one, hshift]
    simp

/-- Up to eight bytes make a number that fits a word. -/
theorem toNat_ofNat_leNat {T : List Byte} (h : T.length ≤ 8) : (BitVec.ofNat 64 (leNat T)).toNat = leNat T := by
  refine (BitVec.toNat_ofNat _ _).trans (Nat.mod_eq_of_lt ?_)
  calc leNat T < 256 ^ T.length := leNat_lt T
    _ ≤ 256 ^ 8 := Nat.pow_le_pow_right (by omega) h
    _ = 2 ^ 64 := by norm_num

/-- Settles O25: the bytes read in order, and their number is the sum without a wrap. -/
theorem memReadIsLittleEndian : Obligations.MemReadIsLittleEndian := by
  intro m a n T hn ha hl hT
  have hread : readBytes m a n = .ok T :=
    readBytes_ok_iff.mpr ⟨hl, fun k hk => ⟨by rw [bufSize]; omega, hT k hk⟩⟩
  refine ⟨_, memRead_ok_of_readBytes hread, ?_⟩
  rw [toNat_ofNat_leNat (by omega), leNat_eq_sum, hl]

/-! ### `MemWrite` (20_memory rule R53) -/

/-- A write that stays inside the buffer stores the bytes of its value. -/
theorem memWrite_eq {m : Memory} {a n : Nat} (v : Word) (h : a + n ≤ bufSize) :
    memWrite m a n v = .ok (m.writeList a (valueBytes n v)) :=
  storeBytes_ok_iff.mpr ⟨by rwa [valueBytes_length], rfl⟩

theorem read_valueBytes_inside (m : Memory) (a : Nat) {n k : Nat} (v : Word) (hk : k < n) :
    (m.writeList a (valueBytes n v)).read (a + k) = some (byteOf v k) := by
  rw [Memory.read_writeList, valueBytes_length, if_pos (by omega), Nat.add_sub_cancel_left, valueBytes_getElem? v hk]

theorem read_valueBytes_outside (m : Memory) {a n x : Nat} (v : Word) (hx : x < a ∨ a + n ≤ x) :
    (m.writeList a (valueBytes n v)).read x = m.read x := by
  rw [Memory.read_writeList, valueBytes_length, if_neg (by omega)]

/-- A range that holds the bytes of a value reads as the value's low bytes. -/
theorem memRead_of_bytes {m : Memory} {a n : Nat} {v : Word} (h : a + n ≤ bufSize)
    (hb : ∀ k, k < n → m.read (a + k) = some (byteOf v k)) :
    memRead m a n = .ok (BitVec.ofNat 64 (v.toNat % 256 ^ n)) := by
  rw [← leNat_valueBytes]
  refine memRead_ok_of_readBytes (readBytes_ok_iff.mpr ⟨valueBytes_length n v, fun k hk => ⟨by omega, ?_⟩⟩)
  rw [hb k hk, valueBytes_getElem? v hk]

/-- The bytes of the upper half of a word are its upper four bytes. -/
theorem byteOf_upperHalf (v : Word) {k : Nat} (hk : k < 4) :
    byteOf ((v.extractLsb' 32 32).setWidth 64) k = byteOf v (4 + k) := by
  refine BitVec.eq_of_getLsbD_eq fun i hi => ?_
  simp [byteOf, hi, show 8 * k + i < 32 by omega, show 8 * k + i < 64 by omega,
    show 32 + (8 * k + i) = 8 * (4 + k) + i by omega]

/-- Settles O26: a read after the write finds the byte of the value inside the range and the old byte outside it, and
the bytes read back from the middle are those of `v[63:32]`. -/
theorem memWritePlacesTheBytes : Obligations.MemWritePlacesTheBytes := by
  intro m a n v _ ha
  refine ⟨_, memWrite_eq v ha, fun k hk => read_valueBytes_inside m a v hk,
    fun x hx => read_valueBytes_outside m v hx, ?_⟩
  rintro rfl
  have hhalf : ((v.extractLsb' 32 32).setWidth 64).toNat % 256 ^ 4 = ((v.extractLsb' 32 32).setWidth 64).toNat := by
    have := (v.extractLsb' 32 32).isLt
    rw [BitVec.toNat_setWidth]
    omega
  rw [memRead_of_bytes (v := (v.extractLsb' 32 32).setWidth 64) (by rw [bufSize]; omega) fun k hk => ?_, hhalf,
    BitVec.ofNat_toNat, BitVec.setWidth_eq]
  rw [byteOf_upperHalf v hk, Nat.add_assoc, read_valueBytes_inside m a v (by omega)]

/-! ### Every step retires (20_memory rule R55, 10_state rule R45) -/

theorem put_answers {s : State} (hi : StreamInv s) (op : Opcode) {n : Nat} (v : Word) (hn : n ≤ 8) :
    ∃ t, put op n v s = .next t := by
  unfold put
  split
  · exact ⟨_, rfl⟩
  · split
    · exact ⟨_, rfl⟩
    · obtain ⟨u, hu, -⟩ := append_keeps_stream v hi (n := n) (by omega) hn (by omega)
      rw [hu]
      exact ⟨_, rfl⟩

theorem exec_put_answers {s : State} (hi : StreamInv s) {i : Instr} (hp : isPut i = true) :
    ∃ t, exec i s = .next t := by
  cases hw : i.wellFormed with
  | true =>
    obtain ⟨n, v, he, hn, -⟩ := exec_put i s hp hw
    rw [he]
    exact put_answers hi _ v hn
  | false =>
    obtain ⟨n, v, rfl, hn⟩ := putb_of_illegal_put hp hw
    exact ⟨_, if_pos hn⟩

theorem execWrreg_answers (idx : Byte) (v : Word) (s : State) : ∃ t, execWrreg idx v s = .next t := by
  unfold execWrreg
  split <;> exact ⟨_, rfl⟩

theorem execRdreg_answers (idx : Byte) (s : State) : ∃ t, execRdreg idx s = .next t := by
  unfold execRdreg
  split <;> exact ⟨_, rfl⟩

/-- Only the puts and `FIN` access the buffer; in a state whose engine holds its stream every access finds a byte. -/
theorem exec_answers {s : State} (hi : StreamInv s) (i : Instr) : ∃ t, exec i s = .next t := by
  cases i with
  | rst | defsec | gensec _ | init => exact ⟨_, rfl⟩
  | wrreg idx v => exact execWrreg_answers idx v s
  | rdreg idx => exact execRdreg_answers idx s
  | fin => exact ⟨_, execFin_of_finHash hi.finHash_eq⟩
  | put8 _ | put16 _ | put32 _ | put64 _ | putc _ | putb _ _ => exact exec_put_answers hi rfl

theorem retireAct_answers {s : State} (hi : StreamInv s) (a : HostAct) : ∃ t, retireAct a s = .next t := by
  cases a with
  | reset => exact ⟨_, rfl⟩
  | command w =>
    cases hd : decode w with
    | ok i =>
      rw [retireAct, retireWord_of_decode_ok hd]
      exact exec_answers hi i
    | error e => exact ⟨_, retireWord_of_decode_error hd s⟩

/-- Settles O52: the host's list is no part of the invariants, and every action retires in a state whose engine holds
its stream. -/
theorem everyStepRetires : Obligations.EveryStepRetires := by
  intro s hi
  cases hin : s.inbox with
  | nil => exact ⟨s, step_of_inbox_nil hin⟩
  | cons a rest =>
    rw [step_of_inbox_cons hin]
    exact retireAct_answers (inv_withInbox s rest hi).engine a

end Sys2Proof.Machine

/-! PROOFS of the statements of 30_encoding: the decoder and the encoder (O1 to O5, O7, O8, O55), what a command answers
(O6, O10, O18), and the runs of the pseudo-instructions (O56, O57). -/

namespace Sys2Proof

/-! ### Decoding a word given by its fields (30_encoding rules R70, R71, R73) -/

/-- A word whose `op` field is an opcode decodes to that opcode's instruction on its operand fields. -/
@[simp] theorem decode_commandWord (o : Opcode) (arg : Byte) (data : Word) :
    decode (commandWord (opcodeBits o) arg data) = .ok (assemble arg data o) := by
  simp [decode]

/-- A fixed-width put's operand is read back from its zero-extended form (R74). -/
theorem extractLsb'_setWidth_self {w : Nat} (v : BitVec w) (hw : w ≤ 64) : (v.setWidth 64).extractLsb' 0 w = v := by
  rw [BitVec.extractLsb'_setWidth_of_le (by omega), BitVec.extractLsb'_eq_self]

/-- A fixed-width put's operand is read back from its sign-extended form (R81). -/
theorem extractLsb'_signExtend_self {w : Nat} (v : BitVec w) (hw : w ≤ 64) :
    (v.signExtend 64).extractLsb' 0 w = v := by
  refine BitVec.eq_of_getLsbD_eq fun i hi => ?_
  rw [BitVec.getLsbD_extractLsb', Nat.zero_add, BitVec.getLsbD_signExtend, if_pos hi]
  simp [hi, show i < 64 by omega]

/-- The operand fields the encoder chooses hold the command's operands. -/
theorem assemble_encodedFields (i : Instr) : assemble (encodedArg i) (encodedData i) (opcodeOf i) = i := by
  cases i with
  | put8 v => exact congrArg Instr.put8 (extractLsb'_setWidth_self v (by omega))
  | put16 v => exact congrArg Instr.put16 (extractLsb'_setWidth_self v (by omega))
  | put32 v => exact congrArg Instr.put32 (extractLsb'_setWidth_self v (by omega))
  | putc c => exact congrArg Instr.putc (extractLsb'_setWidth_self c (by omega))
  | rst | wrreg _ _ | rdreg _ | defsec | gensec _ | init | put64 _ | putb _ _ | fin => rfl

@[simp] theorem decode_encode (i : Instr) : decode (encode i) = .ok i := by
  rw [encode, decode_commandWord, assemble_encodedFields]

/-- Settles O1: the word carries the opcode and the operands, and the decoder reads the same fields. -/
theorem decodeOfEncode : Obligations.DecodeOfEncode := decode_encode

/-- A command word is made of its three fields. -/
theorem commandWord_fields (w : CommandWord) : commandWord (opField w) (argField w) (dataField w) = w := by
  have high : opField w ++ argField w = w.extractLsb' 64 16 :=
    BitVec.extractLsb'_append_extractLsb'_eq_extractLsb' rfl
  have whole : w.extractLsb' 64 16 ++ dataField w = w.extractLsb' 0 80 :=
    BitVec.extractLsb'_append_extractLsb'_eq_extractLsb' rfl
  rw [commandWord, high, whole, BitVec.extractLsb'_eq_self]

/-- Settles O7: each field is read back bit by bit, and the fields side by side cover the word. -/
theorem fieldsMakeTheWord : Obligations.FieldsMakeTheWord :=
  ⟨fun op arg data => ⟨opField_commandWord op arg data, argField_commandWord op arg data,
    dataField_commandWord op arg data⟩, commandWord_fields⟩

/-- Settles O8: each word is evaluated. -/
theorem specWordsDecode : Obligations.SpecWordsDecode := by
  refine ⟨?_, ?_, ?_, ?_, ?_, ?_⟩ <;> rfl

/-! ### Which words decode (30_encoding rules R71, R76, R78) -/

theorem opcodeBits_injective {o o' : Opcode} (h : opcodeBits o = opcodeBits o') : o = o' := by
  have key := congrArg opcodeOfBits h
  simpa using key

/-- A word decodes to a command with opcode `o` exactly when its `op` field holds `o`'s bits. -/
theorem decodes_to_opcode_iff {w : CommandWord} {o : Opcode} :
    (∃ i, decode w = .ok i ∧ opcodeOf i = o) ↔ opField w = opcodeBits o := by
  constructor
  · rintro ⟨i, hi, rfl⟩
    rcases decode_cases w with ⟨o, ho, hd⟩ | ⟨-, hd⟩
    · obtain rfl := Except.ok.inj (hi.symm.trans hd)
      rw [opcodeOf_assemble, ho]
    · cases hi.symm.trans hd
  · intro h
    refine ⟨_, ?_, opcodeOf_assemble (argField w) (dataField w) o⟩
    rw [← decode_commandWord, ← h, commandWord_fields]

/-- The mask of R71 keeps the `op` field, in its place. -/
theorem and_opMask (w : CommandWord) : w &&& (0xFF#80 <<< 72) = (opField w).setWidth 80 <<< 72 := by
  have hmask : ∀ i < 80, (0xFF#80 <<< 72).getLsbD i = decide (72 ≤ i) := by decide
  refine BitVec.eq_of_getLsbD_eq fun i hi => ?_
  rw [BitVec.getLsbD_and, hmask i hi]
  by_cases h : i < 72
  · simp [h]
  · simp [opField, hi, show ¬ i < 72 by omega, show 72 ≤ i by omega, show i - 72 < 8 by omega,
      show 72 + (i - 72) = i by omega]

/-- A byte shifted into the `op` field is told from any other there. -/
theorem shifted_op_inj {b b' : Byte} : b.setWidth 80 <<< 72 = b'.setWidth 80 <<< 72 ↔ b = b' := by
  refine ⟨fun h => BitVec.eq_of_getLsbD_eq fun i hi => ?_, fun h => by rw [h]⟩
  have key := congrArg (fun x : BitVec 80 => x.getLsbD (72 + i)) h
  simpa [show 72 + i < 80 by omega, show i < 80 by omega] using key

/-- Settles O2: the mask test says that the `op` field is the opcode's bits, and so does the decoder's answer. -/
theorem decodingIsByOpAlone : Obligations.DecodingIsByOpAlone := by
  refine ⟨fun o o' => opcodeBits_injective, fun w o => ?_, fun w w' h => ?_⟩
  · rw [and_opMask, shifted_op_inj]
    exact decodes_to_opcode_iff
  · change opField w = opField w' at h
    rcases decode_cases w with ⟨o, ho, hd⟩ | ⟨hno, hd⟩
    · obtain ⟨i', hi', hop⟩ := decodes_to_opcode_iff.mpr (h.symm.trans ho.symm)
      exact .inl ⟨_, i', hd, hi', by rw [opcodeOf_assemble, hop]⟩
    · rcases decode_cases w' with ⟨o, ho, -⟩ | ⟨-, hd'⟩
      · exact absurd (ho.trans h.symm) (hno o)
      · exact .inr ⟨_, hd, by rw [hd', h]⟩

/-- The thirteen `op` values of R73. -/
def opValues : List Nat :=
  [0x01, 0x02, 0x03, 0x04, 0x05, 0x08, 0x10, 0x11, 0x12, 0x13, 0x14, 0x15, 0x20]

theorem opValues_eq : opValues = allOpcodes.map fun o => (opcodeBits o).toNat := by decide

theorem mem_allOpcodes (o : Opcode) : o ∈ allOpcodes := by
  cases o <;> decide

/-- The thirteen values are the opcodes' bits, no more and no fewer. -/
theorem mem_opValues_iff {b : Byte} : b.toNat ∈ opValues ↔ ∃ o, opcodeBits o = b := by
  rw [opValues_eq, List.mem_map]
  constructor
  · rintro ⟨o, -, ho⟩
    exact ⟨o, BitVec.eq_of_toNat_eq ho⟩
  · rintro ⟨o, rfl⟩
    exact ⟨o, mem_allOpcodes o, rfl⟩

/-- An `op` field that is none of the thirteen values is rejected, and named in the rejection (R76). -/
theorem decode_of_not_mem {w : CommandWord} (h : (opField w).toNat ∉ opValues) :
    decode w = .error (.illegalOpcode (opField w)) := by
  rcases decode_cases w with ⟨o, ho, -⟩ | ⟨-, hd⟩
  · exact absurd (mem_opValues_iff.mpr ⟨o, ho⟩) h
  · exact hd

/-- Settles O4: the decoder's two answers are told apart by the thirteen values. -/
theorem decoderIsTotal : Obligations.DecoderIsTotal := by
  intro w
  by_cases h : (opField w).toNat ∈ opValues
  · obtain ⟨o, ho⟩ := mem_opValues_iff.mp h
    obtain ⟨i, hi, -⟩ := decodes_to_opcode_iff.mpr ho.symm
    exact .inl ⟨i, hi, h⟩
  · exact .inr ⟨decode_of_not_mem h, h⟩

/-! ### Ignored fields and simple pseudo-instructions (30_encoding rules R74, R75, R81) -/

/-- Settles O5: the instruction assembled for an opcode is made of the fields that opcode uses. -/
theorem ignoredFieldsDoNotMatter : Obligations.IgnoredFieldsDoNotMatter := by
  intro arg arg' data data'
  simp only [decode_commandWord]
  refine ⟨?_, rfl, ?_, fun h => ?_, ?_, fun h => ?_⟩
  · rintro o (rfl | rfl | rfl | rfl) <;> rfl
  · rintro o (rfl | rfl) <;> rfl
  · rw [assemble, h]; rfl
  · rintro o (rfl | rfl) h <;> rw [assemble, h] <;> rfl
  · rw [assemble, h]; rfl

end Sys2Proof

namespace Sys2Proof.Machine

/-- Settles O55: each expansion is one word made of an opcode and its operand fields. -/
theorem simplePseudoInstructions : Obligations.SimplePseudoInstructions := by
  refine ⟨fun v => ?_, fun k v => ?_, fun v => ?_, fun v => ?_, fun v => ?_, fun v => ?_, ?_, ?_⟩ <;>
    simp [expand, assemble, extractLsb'_setWidth_self, extractLsb'_signExtend_self]

/-! ### `PUTB` and the bits above its operand (30_encoding rule R74) -/

theorem valueBytes_congr {n : Nat} {v v' : Word} (h : ∀ b, b < 8 * n → v.getLsbD b = v'.getLsbD b) :
    valueBytes n v = valueBytes n v' := by
  refine List.map_congr_left fun k hk => BitVec.eq_of_getLsbD_eq fun i hi => ?_
  have hk := List.mem_range.mp hk
  simp [byteOf, hi, h (8 * k + i) (by omega)]

/-- The put procedure uses its operand through the bytes it appends. -/
theorem put_congr {op : Opcode} {n : Nat} {v v' : Word} (h : valueBytes n v = valueBytes n v') (s : State) :
    put op n v s = put op n v' s := by
  have happend : append n v s = append n v' s := by simp only [append, memWrite, h]
  rw [put, put, happend]

/-- Settles O6: above eight bytes the operand is not used at all, and otherwise only its low `n` bytes are. -/
theorem putbIgnoresHighBits : Obligations.PutbIgnoresHighBits := by
  intro n v v' s h
  rw [exec, exec, execPutb, execPutb, put_congr (valueBytes_congr h)]

/-! ### Responses (30_encoding rules R72, R77) -/

theorem faultResponse_le (c : FaultCause) : (c.code.setWidth 8).toNat ≤ 4 := by
  cases c <;> decide

/-- Only `ILLEGAL_OPERAND` responds with its code (60_exceptions rule R180). -/
theorem cause_of_faultResponse {c : FaultCause} (h : c.code.setWidth 8 = 0x02#8) : c = .illegalOperand := by
  cases c with
  | illegalOperand => rfl
  | illegalOpcode | countOverflow | genExhausted => exact absurd h (by decide)

/-- Settles O10: a command ends by one `respond`, with `OK` or in a fault, and so does an illegal opcode. -/
theorem oneResponsePerCommand : Obligations.OneResponsePerCommand := by
  intro w s t h
  cases hd : decode w with
  | ok i =>
    rw [retireWord_of_decode_ok hd] at h
    cases exec_retired h with
    | ok u d eq responses _ data _ =>
      refine ⟨rcOk, d, by rw [eq, respond_responses, responses]; rfl, by decide, fun h => absurd rfl h, fun hi => ?_⟩
      obtain ⟨hfin, hrdreg⟩ := hi i rfl
      exact data hfin hrdreg
    | fault c eq _ =>
      exact ⟨c.code.setWidth 8, 0, by rw [eq]; rfl, faultResponse_le c, fun _ => rfl, fun _ => rfl⟩
  | error e =>
    rw [retireWord_of_decode_error hd] at h
    cases h
    exact ⟨FaultCause.illegalOpcode.code.setWidth 8, 0, rfl, faultResponse_le _, fun _ => rfl, fun _ => rfl⟩

/-- The 243 values R76 names are those outside the thirteen. -/
theorem not_mem_opValues {op : Nat}
    (h : op = 0x00 ∨ op = 0x06 ∨ op = 0x07 ∨ (0x09 ≤ op ∧ op ≤ 0x0F) ∨ (0x16 ≤ op ∧ op ≤ 0x1F) ∨ 0x21 ≤ op) :
    op ∉ opValues := by
  simp only [opValues, List.mem_cons, List.not_mem_nil, or_false]
  omega

/-- Settles O3: the decoder names the rejected `op`, and `raiseFault` spelled out records it. -/
theorem illegalOpcodeIsRejected : Obligations.IllegalOpcodeIsRejected := by
  intro w s h
  have hd : decode w = .error (.illegalOpcode (opField w)) := decode_of_not_mem (not_mem_opValues h)
  exact ⟨hd, retireWord_of_decode_error hd s⟩

/-- The commands with an illegal operand (30_encoding rule R77). -/
theorem wellFormed_eq_false_iff (i : Instr) :
    i.wellFormed = false ↔
      (∃ n v, i = .putb n v ∧ 8 < n.toNat) ∨ (∃ idx, i = .rdreg idx ∧ 0x0F < idx.toNat) ∨
      (∃ idx v, i = .wrreg idx v ∧ (idx.toNat < 0x01 ∨ 0x05 < idx.toNat)) := by
  cases i with
  | putb n v => simp [Instr.wellFormed, legalCount]
  | rdreg idx => simp [Instr.wellFormed, readableIndex]
  | wrreg idx v =>
    simp [Instr.wellFormed, writableIndex]
    omega
  | rst | defsec | gensec _ | init | put8 _ | put16 _ | put32 _ | put64 _ | putc _ | fin =>
    simp [Instr.wellFormed]

/-- A command with an illegal operand takes the fault in every state. -/
theorem exec_of_illegal {i : Instr} (h : i.wellFormed = false) (s : State) :
    exec i s = .next (raiseFault .illegalOperand (opcodeBits (opcodeOf i)) s) := by
  rcases (wellFormed_eq_false_iff i).mp h with ⟨n, v, rfl, hn⟩ | ⟨idx, rfl, -⟩ | ⟨idx, v, rfl, -⟩
  · exact if_pos hn
  · have hnone : readReg s idx = none := by simpa [Instr.wellFormed] using (readReg_isSome s idx).trans h
    rw [exec, execRdreg, hnone]
    rfl
  · have hnone : writeReg s idx v = none := by simpa [Instr.wellFormed] using (writeReg_isSome s idx v).trans h
    rw [exec, execWrreg, hnone]
    rfl

/-- A command with legal operands never responds `ILLEGAL_OPERAND`. -/
theorem responses_of_wellFormed {i : Instr} {s t : State} (hw : i.wellFormed = true) (h : exec i s = .next t)
    (d : Word) : t.responses ≠ s.responses ++ [0x02#8 ++ d] := by
  intro he
  cases exec_retired h with
  | ok u d' eq responses _ _ _ =>
    rw [eq, respond_responses, responses] at he
    obtain ⟨hrc, -⟩ := response_inj (List.singleton_inj.mp (List.append_cancel_left he))
    exact absurd hrc (by decide)
  | fault c eq operand =>
    rw [eq, raiseFault_responses] at he
    obtain ⟨hrc, -⟩ := response_inj (List.singleton_inj.mp (List.append_cancel_left he))
    exact operand hw (cause_of_faultResponse hrc)

/-- Settles O18: the ill-formed commands are R77's, and a well-formed one ends with another response. -/
theorem illegalOperandIsRejected : Obligations.IllegalOperandIsRejected := by
  intro i s illegal
  have hiff : illegal ↔ i.wellFormed = false := (wellFormed_eq_false_iff i).symm
  refine ⟨hiff, fun h => exec_of_illegal (hiff.mp h) s, fun h t ht d => ?_⟩
  exact responses_of_wellFormed (by simpa using mt hiff.mpr h) ht d

/-! ### The bytes of `PUTB` commands (30_encoding rule R83) -/

/-- Two sequences of one length with the same little-endian number are the same. -/
theorem leNat_injective {T T' : List Byte} (hl : T.length = T'.length) (h : leNat T = leNat T') : T = T' := by
  induction T generalizing T' with
  | nil => exact (List.eq_nil_of_length_eq_zero hl.symm).symm
  | cons b T ih =>
    cases T' with
    | nil => cases hl
    | cons b' T' =>
      have hb := b.isLt
      have hb' := b'.isLt
      simp only [leNat] at h
      rw [BitVec.eq_of_toNat_eq (show b.toNat = b'.toNat by omega), ih (Nat.succ.inj hl) (by omega)]

/-- The packed word's bytes are the ones packed, the first in bits 7:0. -/
theorem valueBytes_packBytes {T : List Byte} (h : T.length ≤ 8) : valueBytes T.length (packBytes T) = T := by
  refine leNat_injective (valueBytes_length _ _) ?_
  rw [leNat_valueBytes, packBytes, toNat_ofNat_leNat h, Nat.mod_eq_of_lt (leNat_lt T)]

theorem getElem?_eq_byteOf_packBytes {T : List Byte} {k : Nat} (h : T.length ≤ 8) (hk : k < T.length) :
    T[k]? = some (byteOf (packBytes T) k) := by
  have hv := valueBytes_getElem? (packBytes T) hk
  rwa [valueBytes_packBytes h] at hv

/-- The command that appends one chunk of at most eight bytes. -/
def putCommand (chunk : List Byte) : Instr := .putb (BitVec.ofNat 8 chunk.length) (packBytes chunk)

/-- The byte count of a chunk's command is the chunk's length. -/
theorem toNat_chunkCount {chunk : List Byte} (h : chunk.length ≤ 8) :
    (BitVec.ofNat 8 chunk.length).toNat = chunk.length := by
  rw [BitVec.toNat_ofNat]
  omega

theorem wellFormed_putCommand {chunk : List Byte} (h : chunk.length ≤ 8) : (putCommand chunk).wellFormed = true := by
  simpa only [putCommand, Instr.wellFormed, legalCount, toNat_chunkCount h, decide_eq_true_eq] using h

theorem bytesOf_putCommand {chunk : List Byte} (h : chunk.length ≤ 8) : bytesOf (putCommand chunk) = chunk := by
  simp only [putCommand, bytesOf, toNat_chunkCount h, if_pos h]
  exact valueBytes_packBytes h

/-- One round of the expansion. -/
theorem putBytesLoop_succ (fuel : Nat) {bs : List Byte} (h : bs ≠ []) :
    putBytesLoop (fuel + 1) bs = encode (putCommand (bs.take 8)) :: putBytesLoop fuel (bs.drop 8) := by
  rw [putBytesLoop, if_neg h, putCommand, List.length_take]

@[simp] theorem putBytesLoop_nil (fuel : Nat) : putBytesLoop fuel [] = [] := by
  cases fuel <;> rfl

theorem length_putBytesLoop {fuel : Nat} {bs : List Byte} (h : bs.length ≤ fuel) :
    (putBytesLoop fuel bs).length = (bs.length + 7) / 8 := by
  induction fuel generalizing bs with
  | zero => simp [List.eq_nil_of_length_eq_zero (Nat.le_zero.mp h)]
  | succ fuel ih =>
    by_cases hne : bs = []
    · simp [hne]
    · have hpos := List.length_pos_iff.mpr hne
      have hdrop := List.length_drop (i := 8) (l := bs)
      rw [putBytesLoop_succ fuel hne, List.length_cons, ih (by omega), hdrop]
      omega

/-- Word `j` of the expansion carries the chunk that starts at byte `8j`. -/
theorem putBytesLoop_getElem? {fuel j : Nat} {bs : List Byte} (h : bs.length ≤ fuel) (hj : 8 * j < bs.length) :
    (putBytesLoop fuel bs)[j]? = some (encode (putCommand ((bs.drop (8 * j)).take 8))) := by
  induction j generalizing fuel bs with
  | zero =>
    obtain ⟨f, rfl⟩ : ∃ f, fuel = f + 1 := ⟨fuel - 1, by omega⟩
    rw [putBytesLoop_succ f (List.length_pos_iff.mp hj)]
    rfl
  | succ j ih =>
    obtain ⟨f, rfl⟩ : ∃ f, fuel = f + 1 := ⟨fuel - 1, by omega⟩
    have hdrop := List.length_drop (i := 8) (l := bs)
    rw [putBytesLoop_succ f (List.length_pos_iff.mp (by omega)), List.getElem?_cons_succ, ih (by omega) (by omega),
      List.drop_drop, show 8 + 8 * j = 8 * (j + 1) by omega]

/-- The expansion as commands: puts with legal operands that append exactly the bytes. -/
theorem putBytesLoop_commands {fuel : Nat} {bs : List Byte} (h : bs.length ≤ fuel) :
    ∃ is : List Instr, putBytesLoop fuel bs = is.map encode ∧
      (∀ i ∈ is, isPut i = true ∧ i.wellFormed = true) ∧ bytesOfAll is = bs := by
  induction fuel generalizing bs with
  | zero => exact ⟨[], rfl, by simp, (List.eq_nil_of_length_eq_zero (Nat.le_zero.mp h)).symm⟩
  | succ fuel ih =>
    by_cases hne : bs = []
    · exact ⟨[], by simp [hne], by simp, hne.symm⟩
    · have hpos := List.length_pos_iff.mpr hne
      have hchunk : (bs.take 8).length ≤ 8 := List.length_take_le 8 bs
      obtain ⟨is, heq, hputs, hbytes⟩ := ih (bs := bs.drop 8) (by rw [List.length_drop]; omega)
      refine ⟨putCommand (bs.take 8) :: is, ?_, ?_, ?_⟩
      · rw [putBytesLoop_succ fuel hne, heq, List.map_cons]
      · exact List.forall_mem_cons.mpr ⟨⟨rfl, wellFormed_putCommand hchunk⟩, hputs⟩
      · rw [bytesOfAll, List.flatMap_cons, bytesOf_putCommand hchunk, ← bytesOfAll, hbytes, List.take_append_drop]

/-! ### Runs of puts -/

/-- `t` continues the computation of `s` by the bytes `bs`: the stream has grown by them, the engine holds it, and the
bound seed and schedule are the same. -/
structure Continues (s : State) (bs : List Byte) (t : State) : Prop where
  stream : t.stream = s.stream ++ bs
  engine : StreamInv t
  bound : t.is = s.is ∧ t.s1 = s.s1 ∧ t.s2 = s.s2 ∧ t.s3 = s.s3

theorem Continues.refl {s : State} (hi : StreamInv s) : Continues s [] s :=
  ⟨(List.append_nil _).symm, hi, rfl, rfl, rfl, rfl⟩

theorem Continues.trans {s t u : State} {bs cs : List Byte} (h : Continues s bs t) (h' : Continues t cs u) :
    Continues s (bs ++ cs) u := by
  obtain ⟨his, h1, h2, h3⟩ := h.bound
  obtain ⟨his', h1', h2', h3'⟩ := h'.bound
  exact ⟨by rw [h'.stream, h.stream, List.append_assoc], h'.engine, his'.trans his, h1'.trans h1, h2'.trans h2,
    h3'.trans h3⟩

theorem Continues.cnt {s t : State} {bs : List Byte} (h : Continues s bs t) (hi : StreamInv s) :
    t.cnt.toNat = s.cnt.toNat + bs.length := by
  rw [h.engine.count, h.stream, List.length_append, hi.count]

/-- The host's list is no part of a computation. -/
theorem Continues.of_withInbox {s t : State} {bs : List Byte} {rest : List HostAct}
    (h : Continues { s with inbox := rest } bs t) : Continues s bs t :=
  ⟨h.stream, h.engine, h.bound⟩

theorem streamInv_withInbox {s : State} (rest : List HostAct) (hi : StreamInv s) :
    StreamInv { s with inbox := rest } :=
  SameEngine.streamInv (s := s) (by constructor <;> rfl) hi

theorem put_continues {s : State} (hi : StreamInv s) (op : Opcode) {n : Nat} (v : Word) (hn : n ≤ 8)
    (hc : s.cnt.toNat + n < 2 ^ 64) : ∃ t, put op n v s = .next t ∧ Continues s (valueBytes n v) t := by
  unfold put
  by_cases h0 : n = 0
  · subst h0
    exact ⟨_, rfl, (List.append_nil _).symm, (sameEngine_respond rcOk 0 s).streamInv hi, rfl, rfl, rfl, rfl⟩
  · obtain ⟨u, hu, hiu⟩ := append_keeps_stream v hi (n := n) (by omega) hn hc
    rw [if_neg h0, if_neg (by omega), hu]
    refine ⟨_, rfl, ?_, (sameEngine_respond rcOk 0 u).streamInv hiu, ?_⟩ <;> rw [append_frame hu]
    · rfl
    · exact ⟨rfl, rfl, rfl, rfl⟩

/-- A put with legal operands that fits the count appends its bytes (42_put rule R120). -/
theorem exec_put_continues {s : State} (hi : StreamInv s) {i : Instr} (hp : isPut i = true)
    (hw : i.wellFormed = true) (hc : s.cnt.toNat + (bytesOf i).length < 2 ^ 64) :
    ∃ t, exec i s = .next t ∧ Continues s (bytesOf i) t := by
  obtain ⟨n, v, he, hn, hv⟩ := exec_put i s hp hw
  rw [← hv, valueBytes_length] at hc
  rw [he, ← hv]
  exact put_continues hi _ v hn hc

/-- A run whose next action is an encoded command executes it. -/
theorem run_succ_encode {s t : State} {i : Instr} {rest : List HostAct} (k : Nat)
    (hin : s.inbox = .command (encode i) :: rest) (h : exec i { s with inbox := rest } = .next t) :
    Host.Core.run Sys2Proof.core (k + 1) s = Host.Core.run Sys2Proof.core k t :=
  run_succ Sys2Proof.core k
    (((step_of_inbox_cons hin).trans (retireWord_of_decode_ok (decode_encode i) _)).trans h)

/-- A run of puts that fit the count goes to the end and appends their bytes in order. -/
theorem run_puts {is : List Instr} {s : State} {rest : List HostAct} (hin : s.inbox = presented is ++ rest)
    (hputs : ∀ i ∈ is, isPut i = true ∧ i.wellFormed = true) (hi : StreamInv s)
    (hc : s.cnt.toNat + (bytesOfAll is).length < 2 ^ 64) :
    ∃ t, Host.Core.run Sys2Proof.core is.length s = .next t ∧ t.inbox = rest ∧ Continues s (bytesOfAll is) t := by
  induction is generalizing s with
  | nil => exact ⟨s, rfl, hin, .refl hi⟩
  | cons i is ih =>
    obtain ⟨⟨hp, hw⟩, hputs⟩ := List.forall_mem_cons.mp hputs
    rw [bytesOfAll, List.flatMap_cons, List.length_append, ← bytesOfAll] at hc
    have hi' := streamInv_withInbox (presented is ++ rest) hi
    obtain ⟨t, ht, hst⟩ := exec_put_continues hi' hp hw (by simp only; omega)
    have hcnt : t.cnt.toNat = s.cnt.toNat + (bytesOf i).length := hst.cnt hi'
    obtain ⟨u, hu, huin, htu⟩ := ih (exec_inbox ht) hputs hst.engine (by omega)
    exact ⟨u, (run_succ_encode is.length hin ht).trans hu, huin, hst.of_withInbox.trans htu⟩

theorem inbox_presenting_encode (is : List Instr) (s : State) :
    (presenting (is.map encode) s).inbox = presented is ++ s.inbox := by
  rw [presenting, presented, List.map_map]
  rfl

/-- Settles O57: the words are read off the expansion loop, and the run is one of puts. -/
theorem putBytesPseudoInstruction : Obligations.PutBytesPseudoInstruction := by
  intro s bs hi hc
  refine ⟨length_putBytesLoop le_rfl, fun j hj => ?_, ?_⟩
  · have hword := putBytesLoop_getElem? (bs := bs) (j := j) le_rfl (by omega)
    have hlen : ((bs.drop (8 * j)).take 8).length = min 8 (bs.length - 8 * j) := by
      rw [List.length_take, List.length_drop]
    have hchunk : ((bs.drop (8 * j)).take 8).length ≤ 8 := by omega
    refine ⟨_, _, congrArg (Option.map decode) hword |>.trans (congrArg some (decode_encode _)), ?_, fun k hk => ?_⟩
    · rw [toNat_chunkCount hchunk, hlen]
      split <;> omega
    · rw [toNat_chunkCount hchunk] at hk
      rw [← List.getElem?_drop, ← List.getElem?_take_of_lt (show k < 8 by omega)]
      exact getElem?_eq_byteOf_packBytes hchunk hk
  · obtain ⟨is, heq, hputs, hbytes⟩ := putBytesLoop_commands (le_refl bs.length)
    subst hbytes
    obtain ⟨t, ht, htin, hst⟩ := run_puts (inbox_presenting_encode is s) hputs
      (streamInv_withInbox (s := s) _ hi) hc
    rw [expand, putBytes, heq, List.length_map]
    exact ⟨t, ht, hst.stream, hst.engine, htin⟩

/-! ### `HASH64` (30_encoding rule R82) -/

/-- The reference function uses the seed and the first constant through their xor (43_finalize rule R145). -/
theorem wyhash64_xor (B : List Byte) (seed c0 c1 c2 c3 : Word) :
    wyhash64 B (seed ^^^ c0) ⟨0, c1, c2, c3⟩ = wyhash64 B seed ⟨c0, c1, c2, c3⟩ := by
  simp only [wyhash64, show seed ^^^ c0 ^^^ 0 = seed ^^^ c0 from BitVec.xor_zero]

/-- `FIN` where the engine holds its stream (43_finalize rule R145). -/
theorem exec_fin_of_streamInv {s : State} (hi : StreamInv s) :
    exec .fin s = .next (respond rcOk (wyhash64 s.stream s.is (boundSchedule s))
      { s with res := wyhash64 s.stream s.is (boundSchedule s), status := s.status.setResv true }) :=
  execFin_of_finHash hi.finHash_eq

/-- A run of puts and `FIN` goes to the end; `FIN` answers with the hash of the computation `u` the puts leave. -/
theorem run_puts_fin {is : List Instr} {s : State} {rest : List HostAct}
    (hin : s.inbox = presented (is ++ [.fin]) ++ rest)
    (hputs : ∀ i ∈ is, isPut i = true ∧ i.wellFormed = true) (hi : StreamInv s)
    (hc : s.cnt.toNat + (bytesOfAll is).length < 2 ^ 64) :
    ∃ u, Continues s (bytesOfAll is) u ∧ u.inbox = rest ∧
      Host.Core.run Sys2Proof.core (is.length + 1) s =
        .next (respond rcOk (wyhash64 u.stream u.is (boundSchedule u))
          { u with res := wyhash64 u.stream u.is (boundSchedule u), status := u.status.setResv true }) := by
  rw [presented, List.map_append, List.append_assoc] at hin
  obtain ⟨u, hu, huin, hsu⟩ := run_puts hin hputs hi hc
  have hi' := streamInv_withInbox rest hsu.engine
  refine ⟨{ u with inbox := rest }, ⟨hsu.stream, hi', hsu.bound⟩, rfl, ?_⟩
  exact (run_add Sys2Proof.core _ 1 hu).trans (run_succ_encode 0 huin (exec_fin_of_streamInv hi'))

/-- `INIT` starts a computation that holds the empty stream, whatever the state (41_config rule R104). -/
theorem streamInv_bindEngine (s : State) : StreamInv (bindEngine s) :=
  streamInv_of_fresh rfl rfl rfl rfl

/-- A computation bound by `INIT` is hashed under the configured seed and schedule. -/
theorem hash_of_continues_bindEngine {s t : State} {bs : List Byte} (h : Continues (bindEngine s) bs t) :
    wyhash64 t.stream t.is (boundSchedule t) = wyhash64 bs s.cfgSeed (secrets s) := by
  obtain ⟨his, h1, h2, h3⟩ := h.bound
  rw [boundSchedule, h.stream, his, h1, h2, h3]
  exact wyhash64_xor bs s.cfgSeed s.cfgSecret0 s.cfgSecret1 s.cfgSecret2 s.cfgSecret3

/-- The expansion of `HASH64` as commands. -/
theorem hash64Words_eq_map {is : List Instr} {bs : List Byte} (h : putBytes bs = is.map encode) (seed : Word) :
    hash64Words seed bs = (.wrreg 0x01 seed :: .init :: (is ++ [.fin])).map encode := by
  simp [hash64Words, h]

/-- `WRREG CFG_SEED` and `INIT` complete in every state and bind the seed and the configured schedule. -/
theorem run_seed_init (k : Nat) {s : State} {seed : Word} {acts : List HostAct}
    (hin : s.inbox = presented [.wrreg 0x01 seed, .init] ++ acts) :
    ∃ b : State, b.inbox = acts ∧ b.cfgSeed = seed ∧ secrets b = secrets s ∧
      Host.Core.run Sys2Proof.core (k + 2) s = Host.Core.run Sys2Proof.core k (respond rcOk 0 (bindEngine b)) := by
  refine ⟨respond rcOk 0 { s with inbox := acts, cfgSeed := seed }, rfl, rfl, rfl, ?_⟩
  rw [run_succ_encode (k + 1) hin rfl]
  exact run_succ_encode k rfl rfl

/-- Settles O56: the first two commands start a computation under the configured schedule, and the puts and `FIN` run
from it as from any state whose engine holds its stream. -/
theorem hashPseudoInstruction : Obligations.HashPseudoInstruction := by
  intro s seed bs hlen
  obtain ⟨is, heq, hputs, rfl⟩ := putBytesLoop_commands (le_refl bs.length)
  rw [expand, hash64Words_eq_map heq, List.length_map, List.length_cons, List.length_cons, List.length_append,
    List.length_singleton]
  obtain ⟨b, hbin, rfl, hsec, hstart⟩ := run_seed_init (is.length + 1)
    (inbox_presenting_encode (.wrreg 0x01 seed :: .init :: (is ++ [.fin])) s)
  obtain ⟨u, hbu, huin, hrun⟩ := run_puts_fin (s := respond rcOk 0 (bindEngine b)) hbin hputs
    ((sameEngine_respond rcOk 0 _).streamInv (streamInv_bindEngine b)) (by simpa using hlen)
  have hhash := hash_of_continues_bindEngine (s := b) ⟨hbu.stream, hbu.engine, hbu.bound⟩
  rw [hhash, show secrets b = secrets s from hsec] at hrun
  exact ⟨_, hstart.trans hrun, huin, hbu.stream, List.getLast?_concat, rfl, rfl⟩

end Sys2Proof.Machine

/-! PROOFS of the statements of 40_mix: what `mix` computes on naturals (O23), and its laws (O24). -/

namespace Sys2Proof.Machine

/-! ### The exact product (40_mix rule R90) -/

/-- The product of two zero-extended words does not wrap in 128 bits (40_mix rule R92). -/
theorem toNat_fullProduct (a b : Word) :
    (a.setWidth 128 * b.setWidth 128).toNat = a.toNat * b.toNat := by
  have hlt : a.toNat * b.toNat < 2 ^ 64 * 2 ^ 64 := Nat.mul_lt_mul'' a.isLt b.isLt
  rw [BitVec.toNat_mul, BitVec.toNat_setWidth_of_le (by decide), BitVec.toNat_setWidth_of_le (by decide)]
  exact Nat.mod_eq_of_lt hlt

/-- The two extracted halves are the remainder and the quotient of the exact product, and the quotient fits in a
word. -/
theorem toNat_mix (a b : Word) :
    (mix a b).toNat = (a.toNat * b.toNat % 2 ^ 64) ^^^ (a.toNat * b.toNat / 2 ^ 64) := by
  have hlt : a.toNat * b.toNat / 2 ^ 64 < 2 ^ 64 :=
    Nat.div_lt_of_lt_mul (Nat.mul_lt_mul'' a.isLt b.isLt)
  rw [mix, BitVec.toNat_xor, BitVec.extractLsb'_toNat, BitVec.extractLsb'_toNat, toNat_fullProduct,
    Nat.shiftRight_zero, Nat.shiftRight_eq_div_pow, Nat.mod_eq_of_lt hlt]

/-- Settles O23: `mix` read as a number. -/
theorem mixFoldsTheFullProduct : Obligations.MixFoldsTheFullProduct := toNat_mix

/-! ### The laws (40_mix rule R93) -/

theorem mix_comm (a b : Word) : mix a b = mix b a := by
  rw [mix, mix, BitVec.mul_comm]

/-- A product that fits in a word has the high half 0. -/
theorem toNat_mix_of_lt {a b : Word} (h : a.toNat * b.toNat < 2 ^ 64) :
    (mix a b).toNat = a.toNat * b.toNat := by
  rw [toNat_mix, Nat.mod_eq_of_lt h, Nat.div_eq_of_lt h, Nat.xor_zero]

@[simp] theorem mix_zero (a : Word) : mix a 0 = 0 :=
  BitVec.eq_of_toNat_eq (toNat_mix_of_lt (by simp))

@[simp] theorem zero_mix (b : Word) : mix 0 b = 0 := by
  rw [mix_comm, mix_zero]

@[simp] theorem mix_one (a : Word) : mix a 1 = a := by
  have h1 : a.toNat * (1 : Word).toNat = a.toNat := Nat.mul_one _
  exact BitVec.eq_of_toNat_eq ((toNat_mix_of_lt (lt_of_eq_of_lt h1 a.isLt)).trans h1)

@[simp] theorem one_mix (a : Word) : mix 1 a = a := by
  rw [mix_comm, mix_one]

/-- A product by `2^k` is a shift: the bits that stay in the word and the bits that leave it are its halves. -/
theorem mix_shiftLeft_one (a : Word) {k : Nat} (hk : k ≤ 63) :
    mix a (1#64 <<< k) = (a <<< k) ^^^ (a >>> (64 - k)) := by
  have hpow : (1#64 <<< k).toNat = 2 ^ k := by
    rw [← BitVec.twoPow_eq, BitVec.toNat_twoPow_of_lt (by omega)]
  have hsplit : 2 ^ 64 = 2 ^ (64 - k) * 2 ^ k := by rw [← Nat.pow_add, Nat.sub_add_cancel (by omega)]
  have hhigh : a.toNat * 2 ^ k / 2 ^ 64 = a.toNat / 2 ^ (64 - k) := by
    rw [hsplit, Nat.mul_div_mul_right _ _ (Nat.two_pow_pos k)]
  apply BitVec.eq_of_toNat_eq
  rw [toNat_mix, hpow, hhigh, BitVec.toNat_xor, BitVec.toNat_shiftLeft, BitVec.toNat_ushiftRight,
    Nat.shiftLeft_eq, Nat.shiftRight_eq_div_pow]

theorem mix_not_injective : ¬ Function.Injective (fun p : Word × Word => mix p.1 p.2) := by
  intro hinj
  have hpair : ((0 : Word), (0 : Word)) = (0, 1) := hinj ((zero_mix 0).trans (zero_mix 1).symm)
  exact absurd hpair (by decide)

/-- Settles O24: each law is a lemma above, and the product of the two largest words is evaluated. -/
theorem mixLaws : Obligations.MixLaws :=
  ⟨mix_comm, fun a b => ⟨mix_zero a, zero_mix b⟩, fun a => ⟨mix_one a, one_mix a⟩, fun _ _ => toNat_mix_of_lt,
    fun a _ _ hk => mix_shiftLeft_one a hk, by decide, mix_not_injective⟩

end Sys2Proof.Machine

/-! PROOFS of the statements of 41_config: what `RST` (O14), `WRREG` (O16), `RDREG` (O17), `DEFSEC` (O19) and `INIT`
(O20) do in every state. -/

namespace Sys2Proof.Machine

/-! ### `RST`, `DEFSEC` and `INIT` (41_config rules R100, R103, R104) -/

theorem exec_rst (s : State) : exec .rst s = .next (respond rcOk 0 (toReset s)) := rfl

theorem exec_defsec (s : State) : exec .defsec s = .next (respond rcOk 0 (setSecrets s Config.defaultSecret)) := rfl

theorem exec_init (s : State) : exec .init s = .next (respond rcOk 0 (bindEngine s)) := rfl

/-- Settles O14: `toReset` takes every register but `RES` from the reset state, and the host's lists stay. -/
theorem rstRestoresResetValues : Obligations.RstRestoresResetValues := fun s =>
  ⟨_, exec_rst s, rfl, rfl, rfl, rfl, rfl, rfl, rfl, rfl, rfl, rfl, rfl, rfl, rfl⟩

/-- Settles O19: the next state spelled out is `setSecrets` of the default schedule. -/
theorem defsecLoadsTheDefault : Obligations.DefsecLoadsTheDefault := exec_defsec

/-- Settles O20: the next state spelled out is the freshly bound engine. -/
theorem initStartsAFreshComputation : Obligations.InitStartsAFreshComputation := exec_init

/-! ### `WRREG` (41_config rule R101) -/

/-- A write of a configuration register, with the five registers side by side. -/
theorem writeReg_of_writableIndex {idx : Byte} (h : 1 ≤ idx.toNat ∧ idx.toNat ≤ 5) (s : State) (v : Word) :
    writeReg s idx v = some { s with
      cfgSeed := if idx = 0x01 then v else s.cfgSeed
      cfgSecret0 := if idx = 0x02 then v else s.cfgSecret0
      cfgSecret1 := if idx = 0x03 then v else s.cfgSecret1
      cfgSecret2 := if idx = 0x04 then v else s.cfgSecret2
      cfgSecret3 := if idx = 0x05 then v else s.cfgSecret3 } := by
  have hidx : idx = 0x01 ∨ idx = 0x02 ∨ idx = 0x03 ∨ idx = 0x04 ∨ idx = 0x05 := by bv_omega
  rcases hidx with rfl | rfl | rfl | rfl | rfl <;> rfl

theorem exec_wrreg_of_writeReg {idx : Byte} {v : Word} {s t : State} (h : writeReg s idx v = some t) :
    exec (.wrreg idx v) s = .next (respond rcOk 0 t) := by
  simp [exec, execWrreg, h]

/-- Settles O16: a writable index writes its register, and every other one is an illegal operand. -/
theorem wrregWritesOneRegister : Obligations.WrregWritesOneRegister := by
  intro idx v s
  refine ⟨fun h => exec_wrreg_of_writeReg (writeReg_of_writableIndex h s v), fun h => ?_⟩
  have hillegal : (Instr.wrreg idx v).wellFormed = false :=
    (wellFormed_eq_false_iff _).mpr (.inr (.inr ⟨idx, v, rfl, h⟩))
  exact exec_of_illegal hillegal s

/-! ### `RDREG` (41_config rule R102) -/

/-- The bits of the left word stand above those of the right one. -/
theorem toNat_append_eq_add {m n : Nat} (x : BitVec m) (y : BitVec n) :
    (x ++ y).toNat = x.toNat * 2 ^ n + y.toNat := by
  rw [BitVec.toNat_append, ← Nat.shiftLeft_add_eq_or_of_lt y.isLt, Nat.shiftLeft_eq]

/-- `STATUS` as a number: each field weighs what its lowest bit does (10_state rule R35). -/
theorem toNat_statusWord (st : Status) :
    st.word.toNat = st.resv.toNat + 2 * st.fault.toNat + 16 * st.fcause.toNat + 256 * st.fop.toNat := by
  rw [Status.word, BitVec.toNat_setWidth_of_le (by decide), Status.bits]
  simp only [toNat_append_eq_add, BitVec.toNat_ofBool, BitVec.toNat_ofNat]
  omega

theorem exec_rdreg_of_readReg {idx : Byte} {s : State} {d : Word} (h : readReg s idx = some d) :
    exec (.rdreg idx) s = .next (respond rcOk d s) := by
  simp [exec, execRdreg, h]

/-- The value read at an index is the register that stands there. -/
theorem eq_of_readReg {s : State} {idx k : Byte} {d r : Word} (hd : readReg s idx = some d)
    (hr : readReg s k = some r) (hk : idx = k) : d = r :=
  Option.some.inj (hd.symm.trans (hk ▸ hr))

/-- Settles O17: a readable index reads some word, which each clause compares with the register of its index; every
other index is an illegal operand. -/
theorem rdregRespondsWithTheRegister : Obligations.RdregRespondsWithTheRegister := by
  intro idx s
  refine ⟨fun h => ?_, fun h => ?_⟩
  · have hsome : (readReg s idx).isSome = true := by simpa [readReg_isSome, readableIndex] using h
    obtain ⟨d, hd⟩ := Option.isSome_iff_exists.mp hsome
    have hreg {k : Byte} {r : Word} (hr : readReg s k = some r) : idx = k → d = r := eq_of_readReg hd hr
    refine ⟨d, exec_rdreg_of_readReg hd, fun h0 => ?_, hreg rfl, hreg rfl, hreg rfl, hreg rfl, hreg rfl, hreg rfl,
      hreg rfl, fun h8 => ?_, hreg rfl, hreg rfl, hreg rfl, hreg rfl, hreg rfl, hreg rfl, hreg rfl⟩
    · have hstatus : d = s.status.word := hreg rfl h0
      rw [hstatus, toNat_statusWord]
    · have hoff : d = s.off.setWidth 64 := hreg rfl h8
      rw [hoff, BitVec.toNat_setWidth_of_le (by decide)]
  · have hillegal : (Instr.rdreg idx).wellFormed = false :=
      (wellFormed_eq_false_iff _).mpr (.inr (.inl ⟨idx, rfl, h⟩))
    exact exec_of_illegal hillegal s

end Sys2Proof.Machine

/-! PROOFS of the statements of 42_put: what one put does (O27 to O30), and that the puts of a run are read as the bytes
they append, however the commands cut them (O31 to O33). -/

namespace Sys2Proof.Machine

/-! ### One put (42_put rules R120 to R123, R129) -/

/-- The count after an append that does not overflow, as a word (42_put rule R120). -/
theorem cnt_append_eq_ofNat (c : Word) (n : Nat) : c + BitVec.ofNat 64 n = BitVec.ofNat 64 (c.toNat + n) := by
  rw [BitVec.ofNat_add, BitVec.ofNat_toNat, BitVec.setWidth_eq]

theorem put_of_overflow {n : Nat} {s : State} (op : Opcode) (v : Word) (h0 : n ≠ 0)
    (hc : 2 ^ 64 ≤ s.cnt.toNat + n) : put op n v s = .next (raiseFault .countOverflow (opcodeBits op) s) := by
  rw [put, if_neg h0, if_pos hc]

theorem put_of_append {n : Nat} {v : Word} {s u : State} (op : Opcode) (h0 : n ≠ 0)
    (hc : s.cnt.toNat + n < 2 ^ 64) (hu : append n v s = .ok u) : put op n v s = .next (respond rcOk 0 u) := by
  rw [put, if_neg h0, if_neg (by omega), hu]

/-- A put with legal operands and at least one byte is the procedure on those bytes. -/
theorem exec_put_nonempty {i : Instr} (s : State) (hp : isPut i = true) (hw : i.wellFormed = true)
    (hne : bytesOf i ≠ []) :
    ∃ n v, exec i s = put (opcodeOf i) n v s ∧ n ≠ 0 ∧ n ≤ 8 ∧ valueBytes n v = bytesOf i ∧
      (bytesOf i).length = n := by
  obtain ⟨n, v, he, hn, hv⟩ := exec_put i s hp hw
  have hlen : (bytesOf i).length = n := by rw [← hv, valueBytes_length]
  exact ⟨n, v, he, fun h0 => hne (List.eq_nil_of_length_eq_zero (hlen.trans h0)), hn, hv, hlen⟩

/-- Settles O27: the state `append_within` gives, and the buffer read back after the store. -/
theorem putWithinTheBlock : Obligations.PutWithinTheBlock := by
  rintro i s bs hp hw rfl hne hoff hc
  obtain ⟨n, v, he, h0, -, hv, hlen⟩ := exec_put_nonempty s hp hw hne
  rw [hlen] at hoff hc ⊢
  refine ⟨_, he.trans (put_of_append _ h0 hc (append_within hoff)), ?_, fun k hk => ?_,
    fun a ha => read_valueBytes_outside s.buf v ha⟩
  · rw [← hv, ← cnt_append_eq_ofNat]
    rfl
  · rw [← hv, valueBytes_getElem? v hk]
    exact read_valueBytes_inside s.buf s.off.toNat v hk

/-- The bytes beyond the block, moved to the front of a buffer that holds the whole sequence `B`. -/
theorem read_shifted_front {m : Memory} {B : List Byte} {k : Nat} (hk : k < B.length - 48) :
    (m.writeList 0 (B.drop 48)).read k = B[48 + k]? := by
  rw [Memory.read_writeList, if_pos (by simp; omega), List.getElem?_drop, Nat.sub_zero]

/-- The move to the front reaches no byte behind those it writes (42_put rule R123). -/
theorem read_shifted_behind {m : Memory} {B : List Byte} {k : Nat} (hk : B.length - 48 ≤ k) :
    (m.writeList 0 (B.drop 48)).read k = m.read k := by
  rw [Memory.read_writeList, if_neg (by simp; omega)]

/-- Settles O28: the state `append_across_held` gives; behind the bytes moved to the front the buffer still holds the
old bytes and the new ones, and above them it is as before. -/
theorem putAcrossTheBlock : Obligations.PutAcrossTheBlock := by
  rintro i s bs H T hp hw rfl hoff h48 hc hH rfl
  have hne : bytesOf i ≠ [] := fun h => by rw [h, List.length_nil] at h48; omega
  obtain ⟨n, v, he, h0, hn, hv, hlen⟩ := exec_put_nonempty s hp hw hne
  rw [hlen] at h48 hc ⊢
  rw [← hv]
  have hheld : Holds (appended n v s).buf (s.off.toNat + n) (H ++ valueBytes n v) := appended_holds v hH
  have hsize : (H ++ valueBytes n v).length = s.off.toNat + n := hheld.1
  have hkept : ∀ k, s.off.toNat + n - 48 ≤ k → k < s.off.toNat + n →
      ((appended n v s).buf.writeList 0 ((H ++ valueBytes n v).drop 48)).read k = (H ++ valueBytes n v)[k]? :=
    fun k hlow hhigh => (read_shifted_behind (by omega)).trans (hheld.2 k hhigh)
  refine ⟨_, he.trans (put_of_append _ h0 hc (append_across_held hn hoff h48 hH)), ?_,
    fun k hk => read_shifted_front (by omega), fun k hlow hhigh => ?_, fun k hlow hhigh => hkept k (by omega) hhigh,
    fun a ha => ?_⟩
  · rw [← cnt_append_eq_ofNat]
    rfl
  · rw [List.getElem?_take_of_lt hhigh]
    exact hkept k hlow (by omega)
  · exact (read_shifted_behind (by omega)).trans (read_valueBytes_outside s.buf v (.inr ha))

/-- Settles O29: the count is checked before the append, and `raiseFault` spelled out records the put. -/
theorem countOverflowRejectsThePut : Obligations.CountOverflowRejectsThePut := by
  intro i s hp hw hne hc
  obtain ⟨n, v, he, h0, -, -, hlen⟩ := exec_put_nonempty s hp hw hne
  rw [hlen] at hc
  exact he.trans (put_of_overflow _ v h0 hc)

/-- Settles O30: the put of no bytes only responds, and the operand is checked before the count. -/
theorem putbCornerCases : Obligations.PutbCornerCases := by
  intro v s
  refine ⟨rfl, fun n hn => ?_⟩
  have hillegal : (Instr.putb n v).wellFormed = false := (wellFormed_eq_false_iff _).mpr (.inl ⟨n, v, rfl, hn⟩)
  exact exec_of_illegal hillegal s

/-! ### The puts of a run (42_put rules R130 to R132) -/

/-- The first `OFF` bytes of the buffer, and the whole block once one has been absorbed, are bytes of the stream that
`CNT` and `OFF` alone choose (10_state rules R42, R44). -/
theorem SameComputation.of_stream {t u : State} (ht : StreamInv t) (hu : StreamInv u) (hstream : t.stream = u.stream)
    (hbound : t.is = u.is ∧ t.s1 = u.s1 ∧ t.s2 = u.s2 ∧ t.s3 = u.s3) : SameComputation t u := by
  obtain ⟨his, h1, h2, h3⟩ := hbound
  have hcnt : t.cnt = u.cnt := by rw [ht.cnt_eq, hu.cnt_eq, hstream]
  have hoff : t.off = u.off := BitVec.eq_of_toNat_eq (by rw [ht.off_eq, hu.off_eq, hstream])
  have haccs : accs t = accs u := by rw [ht.accs_eq, hu.accs_eq, hstream, his, h1, h2, h3]
  have hheld : ∀ k, k < t.off.toNat → t.buf.read k = u.buf.read k := fun k hk => by
    rw [ht.held k hk, hu.held k (hoff ▸ hk), hcnt, hoff, hstream]
  refine ⟨hcnt, hoff, congrArg Acc.e0 haccs, congrArg Acc.e1 haccs, congrArg Acc.e2 haccs, hheld,
    fun h48 k hk => ?_⟩
  by_cases hko : k < t.off.toNat
  · exact hheld k hko
  · rw [ht.kept h48 k (by omega) hk, hu.kept (hcnt ▸ h48) k (by rw [← hoff]; omega) hk, hcnt, hoff, hstream]

/-- Two computations that continue one state by the same bytes agree. -/
theorem Continues.sameComputation {s t u : State} {bs : List Byte} (ht : Continues s bs t) (hu : Continues s bs u) :
    SameComputation t u := by
  obtain ⟨his, h1, h2, h3⟩ := ht.bound
  obtain ⟨his', h1', h2', h3'⟩ := hu.bound
  exact .of_stream ht.engine hu.engine (ht.stream.trans hu.stream.symm)
    ⟨his.trans his'.symm, h1.trans h1'.symm, h2.trans h2'.symm, h3.trans h3'.symm⟩

/-- Two computations that continue one state by the same bytes have the same reference hash. -/
theorem Continues.hash_eq {s t u : State} {bs : List Byte} (ht : Continues s bs t) (hu : Continues s bs u) :
    wyhash64 t.stream t.is (boundSchedule t) = wyhash64 u.stream u.is (boundSchedule u) := by
  obtain ⟨his, h1, h2, h3⟩ := ht.bound
  obtain ⟨his', h1', h2', h3'⟩ := hu.bound
  rw [boundSchedule, boundSchedule, ht.stream, hu.stream, his, h1, h2, h3, his', h1', h2', h3']

/-- A run of puts alone, from the state they are presented in. -/
theorem run_presented_puts {is : List Instr} {s : State} (hi : StreamInv s)
    (hputs : ∀ i ∈ is, isPut i = true ∧ i.wellFormed = true)
    (hc : s.cnt.toNat + (bytesOfAll is).length < 2 ^ 64) :
    ∃ t, Host.Core.run Sys2Proof.core is.length { s with inbox := presented is } = .next t ∧
      Continues s (bytesOfAll is) t := by
  obtain ⟨t, ht, -, hst⟩ := run_puts (s := { s with inbox := presented is }) (List.append_nil _).symm hputs
    (streamInv_withInbox _ hi) hc
  exact ⟨t, ht, hst.of_withInbox⟩

@[simp] theorem bytesOfAll_map_put8 (bs : List Byte) : bytesOfAll (bs.map .put8) = bs := by
  simp [bytesOfAll, List.flatMap_map, bytesOf]

theorem bytesOfAll_map_putc (cs : List (BitVec 16)) :
    bytesOfAll (cs.map .putc) = cs.flatMap fun c => [c.extractLsb' 0 8, c.extractLsb' 8 8] := by
  rw [bytesOfAll, List.flatMap_map]
  rfl

theorem length_bytesOfAll_map_putc (cs : List (BitVec 16)) : (bytesOfAll (cs.map .putc)).length = 2 * cs.length := by
  simp [bytesOfAll_map_putc, Nat.mul_comm]

/-- Settles O33: both runs continue `s` by the same bytes, which fixes the computation and what `FIN` makes of it. -/
theorem chunkingIndependence : Obligations.ChunkingIndependence := by
  intro s is js hi hputs hbytes hc
  obtain ⟨his, hjs⟩ := List.forall_mem_append.mp hputs
  obtain ⟨t, ht, hst⟩ := run_presented_puts hi his hc
  obtain ⟨u, hu, hsu⟩ := run_presented_puts hi hjs (hbytes ▸ hc)
  rw [← hbytes] at hsu
  exact ⟨t, u, _, _, ht, hu, hst.sameComputation hsu, exec_fin_of_streamInv hst.engine,
    exec_fin_of_streamInv hsu.engine, hst.hash_eq hsu⟩

/-- Settles O31: the put and the run of `PUT8` continue `s` by the same bytes. -/
theorem typeWriteEquivalence : Obligations.TypeWriteEquivalence := by
  intro i s t hp hw hi hc ht
  obtain ⟨t', ht', hst⟩ := exec_put_continues hi hp hw hc
  obtain rfl : t' = t := Host.Outcome.next.inj (ht'.symm.trans ht)
  have hputs : ∀ j ∈ (bytesOf i).map Instr.put8, isPut j = true ∧ j.wellFormed = true :=
    List.forall_mem_map.mpr fun _ _ => ⟨rfl, rfl⟩
  obtain ⟨u, hu, hsu⟩ := run_presented_puts hi hputs (by rwa [bytesOfAll_map_put8])
  rw [List.length_map] at hu
  rw [bytesOfAll_map_put8] at hsu
  exact ⟨u, hu, hst.sameComputation hsu, hst.stream.trans hsu.stream.symm⟩

/-- Settles O32: the run of `PUTC` is one of puts, two bytes each. -/
theorem characterSequenceEquivalence : Obligations.CharacterSequenceEquivalence := by
  intro cs s hi hc
  have hputs : ∀ j ∈ cs.map Instr.putc, isPut j = true ∧ j.wellFormed = true :=
    List.forall_mem_map.mpr fun _ _ => ⟨rfl, rfl⟩
  obtain ⟨t, ht, hst⟩ := run_presented_puts hi hputs (by rwa [length_bytesOfAll_map_putc])
  rw [List.length_map] at ht
  rw [bytesOfAll_map_putc] at hst
  exact ⟨t, ht, hst.stream, hst.engine⟩

end Sys2Proof.Machine

/-! PROOFS of the statements of 43_finalize: `FIN` from the bytes the buffer holds (O34, O35), what it leaves alone
(O36), that it gives the reference hash of the stream (O37), and what that function folds for each length (O38). -/

namespace Sys2Proof.Machine

/-- Settles O37: `FIN` gives the hash under `IS` and the constant 0 (`StreamInv.finHash_eq`), which depends on the two
through their xor alone. -/
theorem streamingEqualsOneShot : Obligations.StreamingEqualsOneShot := by
  intro s seedb secret0b hi his
  have hhash : wyhash64 s.stream s.is (boundSchedule s) = wyhash64 s.stream seedb ⟨secret0b, s.s1, s.s2, s.s3⟩ := by
    rw [← his]
    exact wyhash64_xor s.stream seedb secret0b s.s1 s.s2 s.s3
  rw [← hhash]
  exact exec_fin_of_streamInv hi

/-- Settles O36: the first `FIN` leaves the computation alone (`sameEngine_fin`), so the second finds the same hash. -/
theorem finIsReadOnlyAndIdempotent : Obligations.FinIsReadOnlyAndIdempotent := by
  intro s t h
  obtain ⟨w, hw, rfl⟩ := execFin_cases h
  exact ⟨rfl, execFin_of_finHash ((sameEngine_fin w s).finHash_eq.trans hw)⟩

/-! ### Short streams (43_finalize rules R142, R143) -/

/-- A byte read as a word is zero extended (20_memory rule R62). -/
theorem toNat_byteAt (T : List Byte) (k : Nat) : (byteAt T k).toNat = (T.getD k 0).toNat := by
  rw [byteAt, BitVec.toNat_ofNat]
  omega

/-- A byte set below a shifted word adds to it. -/
theorem toNat_shiftLeft_or_byte {v w : Word} (hv : v.toNat < 2 ^ 56) (hw : w.toNat < 2 ^ 8) :
    ((v <<< 8) ||| w).toNat = v.toNat * 2 ^ 8 + w.toNat := by
  rw [BitVec.toNat_or, BitVec.toNat_shiftLeft, Nat.shiftLeft_eq, Nat.mod_eq_of_lt (by omega), ← Nat.shiftLeft_eq,
    Nat.shiftLeft_add_eq_or_of_lt hw]

/-- Three bytes packed into disjoint bits weigh as digits do (43_finalize rule R143). -/
theorem toNat_packed {x y z : Word} (hx : x.toNat < 2 ^ 8) (hy : y.toNat < 2 ^ 8) (hz : z.toNat < 2 ^ 8) :
    ((x <<< 16) ||| (y <<< 8) ||| z).toNat = x.toNat * 2 ^ 16 + y.toNat * 2 ^ 8 + z.toNat := by
  have hhigh : ((x <<< 8) ||| y).toNat = x.toNat * 2 ^ 8 + y.toNat := toNat_shiftLeft_or_byte (by omega) hy
  have hdigits : (x <<< 16) ||| (y <<< 8) = ((x <<< 8) ||| y) <<< 8 := by
    rw [BitVec.shiftLeft_or_distrib, ← BitVec.shiftLeft_add]
  rw [hdigits, toNat_shiftLeft_or_byte (by omega) hz, hhigh]
  omega

theorem shortAB_zero (T : List Byte) : shortAB T 0 = (0, 0) := rfl

/-- One to three bytes: the first, middle and last one packed into `a` (43_finalize rule R143). -/
theorem shortAB_of_le_three (T : List Byte) {n : Nat} (h1 : 1 ≤ n) (h3 : n ≤ 3) :
    (shortAB T n).1.toNat =
        (T.getD 0 0).toNat * 2 ^ 16 + (T.getD (n / 2) 0).toNat * 2 ^ 8 + (T.getD (n - 1) 0).toNat ∧
      (shortAB T n).2 = 0 := by
  have hbyte (k : Nat) : (byteAt T k).toNat < 2 ^ 8 := toNat_byteAt T k ▸ (T.getD k 0).isLt
  rw [shortAB, if_neg (by omega), if_pos h3]
  refine ⟨?_, rfl⟩
  simp only [toNat_packed (hbyte _) (hbyte _) (hbyte _), toNat_byteAt]

/-- Four to sixteen bytes: two 4-byte reads from either end (43_finalize rule R142). -/
theorem shortAB_of_four_le (T : List Byte) {n : Nat} (h : 4 ≤ n) :
    shortAB T n = ((le32 T 0 <<< 32) ||| le32 T (n / 8 * 4),
      (le32 T (n - 4) <<< 32) ||| le32 T (n - 4 - n / 8 * 4)) := by
  rw [shortAB, if_neg (by omega), if_neg (by omega)]

/-- Settles O34: the words `a` and `b` are those of `shortAB`, in each of its three cases. -/
theorem finOfAShortStream : Obligations.FinOfAShortStream := by
  intro s T hcnt hoff hT
  have hread : readBytes s.buf 0 s.off.toNat = .ok T := readBytes_of_holds (by rw [bufSize]; omega) hT
  have hhash := finHash_short hcnt hread
  rw [← hT.1] at hhash
  refine ⟨_, _, _, execFin_of_finHash hhash, rfl, fun h0 => ?_, fun h1 h3 => shortAB_of_le_three T h1 h3,
    fun h4 => Prod.mk.inj (shortAB_of_four_le T h4)⟩
  rw [h0, shortAB_zero]
  exact ⟨rfl, rfl⟩

/-! ### Long streams (43_finalize rules R144, R148) -/

/-- The tail of `FIN` from the held bytes `T` and the bytes `K` kept before them (43_finalize rule R144). -/
theorem finTail_of_kept {m : Memory} {off : Nat} {T K : List Byte} (hT : readBytes m 0 off = .ok T)
    (hK : readBytes m (32 + off) (16 - off) = .ok K) :
    finTail m off = .ok (if 16 ≤ off then T.drop (off - 16) else K ++ T) := by
  split
  · exact finTail_in_place hT ‹_›
  · exact finTail_wrapped hT hK (by omega)

/-- Settles O35: the segment loop on at most 48 held bytes folds at most two segments (`segmentLoop_short`). -/
theorem finOfALongStream : Obligations.FinOfALongStream := by
  intro s T K hcnt hoff hT hKlen hK
  have hread : readBytes s.buf 0 s.off.toNat = .ok T := readBytes_of_holds (by rw [bufSize]; omega) hT
  have hkept : readBytes s.buf (32 + s.off.toNat) (16 - s.off.toNat) = .ok K :=
    readBytes_ok_iff.mpr ⟨hKlen, fun k hk => ⟨by rw [bufSize]; omega, hK k hk⟩⟩
  have hhash := finHash_long hcnt hread (finTail_of_kept hread hkept)
  rw [segmentLoop_short T s.s1 0 _ _ hoff] at hhash
  have hTlen := hT.1
  refine ⟨_, _, _, _, _, execFin_of_finHash hhash, rfl, rfl, rfl, rfl, ?_, rfl⟩
  split
  · rw [List.length_drop]; omega
  · rw [List.length_append]; omega

/-- Settles O38: the block loop leaves the fill of the length (`longABS_eq`), one to 48 bytes, of which the segment
loop folds at most two segments (`segmentLoop_short`). -/
theorem lengthClasses : Obligations.LengthClasses := by
  intro B s s1 s2 s3 hlen n nb e f p g z
  have hfill : fillOf n = n - p := fillOf_eq n
  have hle := fillOf_le n
  have hpos := fillOf_pos (show 0 < n by omega)
  have hstart : n - fillOf n = p := (blockCount_mul n).symm
  have hfolded : (if 48 < n then e.fold else s) = f := by
    simp only [f, ← Nat.not_le, ite_not, Acc.fold]
  have hloop : segmentLoop B s1 (fillOf n) (n - fillOf n) (fillOf n) (if 48 < n then e.fold else s) = z := by
    rw [hfolded, segmentLoop_short B s1 _ _ _ hle, hstart, hfill]
    rfl
  exact ⟨(longABS_eq B s s1 s2 s3).trans (congrArg (fun x => (le64 B (n - 16), le64 B (n - 8), x)) hloop),
    by omega, by omega⟩

end Sys2Proof.Machine

/-! PROOFS of the statements of 44_secret_gen: where the constants are used (O39), the lanes of a candidate (O40), which
candidates the generator takes (O41, O44), and what `GENSEC` does with its answer (O42, O43). -/

namespace Sys2Proof.Machine

/-! ### Where the constants are used (44_secret_gen rule R161) -/

/-- Up to 48 bytes no block is absorbed: the whole sequence is left for the segment loop, which runs from the bound
seed. -/
theorem longABS_of_length_le {B : List Byte} (s s1 s2 s3 : Word) (h : B.length ≤ 48) :
    longABS B s s1 s2 s3 =
      (le64 B (B.length - 16), le64 B (B.length - 8), segmentLoop B s1 B.length 0 B.length s) := by
  have hfill : fillOf B.length = B.length := if_pos h
  rw [longABS_eq, if_neg (Nat.not_lt.mpr h), hfill, Nat.sub_self]

/-- Settles O39: at most 16 bytes use neither constant, and the long branch uses them in the block loop alone. -/
theorem shortStreamsUseTwoSecrets : Obligations.ShortStreamsUseTwoSecrets := by
  intro B seed c0 c1 c2 c3 d2 d3 h48
  rcases Nat.lt_or_ge 16 B.length with h16 | h16
  · rw [wyhash64_long _ _ h16, wyhash64_long _ _ h16, longABS_of_length_le _ _ c2 c3 h48,
      longABS_of_length_le _ _ d2 d3 h48]
  · rw [wyhash64_short _ _ h16, wyhash64_short _ _ h16]

/-! ### The lanes of a candidate (44_secret_gen rules R163, R164) -/

/-- The running seed `n` steps after `r` (44_secret_gen rule R163). -/
def seedAfter (P : GenParams) (r : Word) (n : Nat) : Word := r + BitVec.ofNat 64 n * P.inc

@[simp] theorem seedAfter_zero (P : GenParams) (r : Word) : seedAfter P r 0 = r := by
  simp [seedAfter]

theorem seedAfter_add (P : GenParams) (r : Word) (m n : Nat) :
    seedAfter P (seedAfter P r m) n = seedAfter P r (m + n) := by
  simp only [seedAfter, BitVec.ofNat_add, BitVec.add_mul, BitVec.add_assoc]

theorem nextSeed_eq_seedAfter (P : GenParams) (r : Word) : nextSeed P r = seedAfter P r 1 := by
  simp [nextSeed, seedAfter]

theorem candidateLoop_seed (P : GenParams) (lanes j : Nat) (r c : Word) :
    (candidateLoop P lanes j r c).1 = seedAfter P r lanes := by
  induction lanes generalizing j r c with
  | zero => simp [candidateLoop]
  | succ lanes ih => rw [candidateLoop, ih, nextSeed_eq_seedAfter, seedAfter_add, Nat.add_comm]

/-- Filling lane `j` sets bits in byte `j` and in no other. -/
theorem byteOf_or_lane (c : Word) (b : Byte) (j : Nat) {k : Nat} (hk : k < 8) :
    byteOf (c ||| (b.setWidth 64 <<< (8 * j))) k = byteOf c k ||| (if k = j then b else 0) := by
  refine BitVec.eq_of_getLsbD_eq fun i hi => ?_
  have hword : 8 * k + i < 64 := by omega
  have hlane : (b.setWidth 64 <<< (8 * j)).getLsbD (8 * k + i) = (if k = j then b else 0).getLsbD i := by
    rcases Nat.lt_trichotomy k j with hkj | rfl | hkj
    · simp [show 8 * k + i < 8 * j by omega, Nat.ne_of_lt hkj]
    · simp [hword, hi]
    · simp [BitVec.getLsbD_of_ge b (8 * k + i - 8 * j) (by omega), Nat.ne_of_gt hkj]
  rw [BitVec.getLsbD_or, ← hlane]
  simp [byteOf, hi, hword]

/-- The loop fills the lanes from `j` on, each with the entry its own draw selects, and leaves the others. -/
theorem byteOf_candidateLoop (P : GenParams) (lanes j : Nat) (r c : Word) {k : Nat} (hk : k < 8) :
    byteOf (candidateLoop P lanes j r c).2 k =
      byteOf c k ||| (if j ≤ k ∧ k < j + lanes then laneByte P (draw P (seedAfter P r (k - j + 1))) else 0) := by
  induction lanes generalizing j r c with
  | zero => simp [candidateLoop, show ¬ (j ≤ k ∧ k < j) by omega]
  | succ lanes ih =>
    rw [candidateLoop, ih, byteOf_or_lane _ _ _ hk, nextSeed_eq_seedAfter, seedAfter_add, BitVec.or_assoc]
    congr 1
    rcases Nat.lt_trichotomy k j with hkj | rfl | hkj
    · simp [show ¬ j ≤ k by omega, show ¬ j + 1 ≤ k by omega, Nat.ne_of_lt hkj]
    · simp
    · simp [Nat.ne_of_gt hkj, show j + 1 ≤ k by omega, show j ≤ k by omega,
        show 1 + (k - (j + 1) + 1) = k - j + 1 by omega, show j + 1 + lanes = j + (lanes + 1) by omega]

theorem candidate_seed (P : GenParams) (r : Word) : (candidate P r).1 = seedAfter P r 8 := candidateLoop_seed P 8 0 r 0

theorem byteOf_candidate (P : GenParams) (r : Word) {j : Nat} (hj : j < 8) :
    byteOf (candidate P r).2 j = laneByte P (draw P (seedAfter P r (j + 1))) := by
  rw [candidate, byteOf_candidateLoop P 8 0 r 0 hj, if_pos (by omega), Nat.sub_zero]
  simp [byteOf]

/-- Settles O40: the loop run over all eight lanes, from the empty candidate. -/
theorem candidateLanes : Obligations.CandidateLanes := fun P r =>
  ⟨candidate_seed P r, fun _ hj => byteOf_candidate P r hj⟩

/-! ### Which candidates the generator takes (44_secret_gen rules R165, R166) -/

/-- The `k`-th candidate of the running seed that starts at `seedS` (44_secret_gen rule R165: never rewound). -/
def candidateAt (P : GenParams) (seedS : Word) (k : Nat) : Word := (candidate P (seedAfter P seedS (8 * k))).2

theorem candidate_seedAfter (P : GenParams) (seedS : Word) (k : Nat) :
    candidate P (seedAfter P seedS (8 * k)) = (seedAfter P seedS (8 * (k + 1)), candidateAt P seedS k) :=
  Prod.ext ((candidate_seed P _).trans (seedAfter_add P seedS (8 * k) 8)) rfl

/-- The word `w` meets the acceptance criterion of R165 against the constants `prev`. -/
def Acceptable (prev : List Word) (w : Word) : Prop := w.getLsbD 0 = true ∧ ∀ q ∈ prev, hamming w q = 32

/-- Of the `tries` words of `c` from index `start` on, the one at `p` is the first acceptable one. -/
def FirstAcceptable (c : Nat → Word) (prev : List Word) (tries start p : Nat) : Prop :=
  start ≤ p ∧ p < start + tries ∧ Acceptable prev (c p) ∧ ∀ k, start ≤ k → k < p → ¬ Acceptable prev (c k)

section
variable {c : Nat → Word} {prev : List Word} {tries start p : Nat}

theorem not_firstAcceptable_zero : ¬ FirstAcceptable c prev 0 start p := fun ⟨hle, hlt, _⟩ => by omega

/-- An acceptable word at the start is the first one. -/
theorem firstAcceptable_of_acceptable (h : Acceptable prev (c start)) :
    FirstAcceptable c prev (tries + 1) start p ↔ p = start := by
  constructor
  · rintro ⟨hle, -, -, hmin⟩
    exact (Nat.eq_or_lt_of_le hle).elim Eq.symm fun hlt => absurd h (hmin start le_rfl hlt)
  · rintro rfl
    exact ⟨le_rfl, by omega, h, fun k hle hlt => by omega⟩

/-- A start that is rejected can be left out. -/
theorem firstAcceptable_of_rejected (h : ¬ Acceptable prev (c start)) :
    FirstAcceptable c prev (tries + 1) start p ↔ FirstAcceptable c prev tries (start + 1) p := by
  constructor
  · rintro ⟨hle, hlt, hp, hmin⟩
    have hne : start ≠ p := fun he => h (he ▸ hp)
    exact ⟨by omega, by omega, hp, fun k hk => hmin k (by omega)⟩
  · rintro ⟨hle, hlt, hp, hmin⟩
    refine ⟨by omega, by omega, hp, fun k hk hkp => ?_⟩
    rcases Nat.eq_or_lt_of_le hk with rfl | hk
    · exact h
    · exact hmin k hk hkp

end

/-- A slot that starts at candidate `start` answers with the first acceptable one, and the next slot goes on after
it. -/
theorem genSlot_eq_some_iff {P : GenParams} {seedS : Word} {prev : List Word} {tries start : Nat} {x : Word × Word} :
    genSlot P prev tries (seedAfter P seedS (8 * start)) = some x ↔
      ∃ p, FirstAcceptable (candidateAt P seedS) prev tries start p ∧
        x = (seedAfter P seedS (8 * (p + 1)), candidateAt P seedS p) := by
  induction tries generalizing start with
  | zero => simp [genSlot, not_firstAcceptable_zero]
  | succ tries ih =>
    simp only [genSlot, candidate_seedAfter]
    by_cases h : Acceptable prev (candidateAt P seedS start)
    · rw [if_pos (accepts_iff.mpr h)]
      simp [firstAcceptable_of_acceptable h, eq_comm]
    · rw [if_neg (mt accepts_iff.mp h), ih]
      simp only [firstAcceptable_of_rejected h]

/-- The first slot starts at candidate 0. -/
theorem genSlot_first_eq_some_iff {P : GenParams} {seedS : Word} {prev : List Word} {tries : Nat} {x : Word × Word} :
    genSlot P prev tries seedS = some x ↔
      ∃ p, FirstAcceptable (candidateAt P seedS) prev tries 0 p ∧
        x = (seedAfter P seedS (8 * (p + 1)), candidateAt P seedS p) := by
  have h := genSlot_eq_some_iff (P := P) (seedS := seedS) (prev := prev) (tries := tries) (start := 0) (x := x)
  rwa [Nat.mul_zero, seedAfter_zero] at h

/-- The converse of `generate_cases`: the four slots' answers make the generator's. -/
theorem generate_of_slots {P : GenParams} {cap : Nat} {seedS : Word} {x : Schedule} {r0 r1 r2 r3 : Word}
    (h0 : genSlot P [] cap seedS = some (r0, x.c0)) (h1 : genSlot P [x.c0] cap r0 = some (r1, x.c1))
    (h2 : genSlot P [x.c0, x.c1] cap r1 = some (r2, x.c2))
    (h3 : genSlot P [x.c0, x.c1, x.c2] cap r2 = some (r3, x.c3)) : generate P cap seedS = some x := by
  simp only [generate, h0, h1, h2, h3]

/-- Settles O41: slot by slot, each starts at the candidate after the one the slot before accepted. -/
theorem generatorTakesTheFirstAcceptable : Obligations.GeneratorTakesTheFirstAcceptable := by
  intro P cap seedS x c ok first
  constructor
  · intro h
    obtain ⟨r0, r1, r2, r3, h0, h1, h2, h3⟩ := generate_cases h
    obtain ⟨p0, hp0, e0⟩ := genSlot_first_eq_some_iff.mp h0
    obtain ⟨rfl, hc0⟩ := Prod.mk.inj e0
    obtain ⟨p1, hp1, e1⟩ := genSlot_eq_some_iff.mp h1
    obtain ⟨rfl, hc1⟩ := Prod.mk.inj e1
    obtain ⟨p2, hp2, e2⟩ := genSlot_eq_some_iff.mp h2
    obtain ⟨rfl, hc2⟩ := Prod.mk.inj e2
    obtain ⟨p3, hp3, e3⟩ := genSlot_eq_some_iff.mp h3
    obtain ⟨-, hc3⟩ := Prod.mk.inj e3
    obtain ⟨x0, x1, x2, x3⟩ := x
    subst hc0 hc1 hc2 hc3
    exact ⟨p0, p1, p2, p3, hp0, hp1, hp2, hp3, rfl⟩
  · rintro ⟨p0, p1, p2, p3, hp0, hp1, hp2, hp3, rfl⟩
    exact generate_of_slots (genSlot_first_eq_some_iff.mpr ⟨p0, hp0, rfl⟩)
      (genSlot_eq_some_iff.mpr ⟨p1, hp1, rfl⟩) (genSlot_eq_some_iff.mpr ⟨p2, hp2, rfl⟩)
      (genSlot_eq_some_iff.mpr ⟨p3, hp3, rfl⟩)

theorem hamming_comm (a b : Word) : hamming a b = hamming b a := by
  rw [← popcount_xor, ← popcount_xor, BitVec.xor_comm]

/-- Settles O44: each slot's answer was accepted against the constants before it, and the distance is symmetric. -/
theorem generatedScheduleIsValid : Obligations.GeneratedScheduleIsValid := by
  intro P cap seedS s h t
  obtain ⟨x, hx⟩ := Option.isSome_iff_exists.mp h
  obtain ⟨r0, r1, r2, r3, h0, h1, h2, h3⟩ := generate_cases hx
  obtain ⟨odd0, -⟩ := accepts_iff.mp (genSlot_accepts h0)
  obtain ⟨odd1, dist1⟩ := accepts_iff.mp (genSlot_accepts h1)
  obtain ⟨odd2, dist2⟩ := accepts_iff.mp (genSlot_accepts h2)
  obtain ⟨odd3, dist3⟩ := accepts_iff.mp (genSlot_accepts h3)
  have before {a b : Word} {prev : List Word} (hd : ∀ q ∈ prev, hamming a q = 32) (hb : b ∈ prev) :
      hamming b a = 32 := (hamming_comm b a).trans (hd b hb)
  have ht : t = respond rcOk 0 (setSecrets s x) := gensecWith_some hx
  rw [ht]
  exact ⟨odd0, odd1, odd2, odd3, before dist1 (by simp), before dist2 (by simp), before dist3 (by simp),
    before dist2 (by simp), before dist3 (by simp), before dist3 (by simp)⟩

/-! ### `GENSEC` (44_secret_gen rule R165) -/

theorem exec_gensec (seedS : Word) (s : State) :
    exec (.gensec seedS) s = .next (gensecWith Config.genParams Config.ssRetryCap seedS s) := rfl

/-- Settles O42: the next state spelled out is the response after `setSecrets` (`gensecWith_some`). -/
theorem gensecWritesTheSchedule : Obligations.GensecWritesTheSchedule := by
  intro seedS s x hx
  rw [exec_gensec, gensecWith_some hx]
  rfl

/-- Settles O43: the next state spelled out is `raiseFault` (`gensecWith_none`). -/
theorem gensecExhausted : Obligations.GensecExhausted := fun _ _ seedS s =>
  ⟨gensecWith_none, exec_gensec seedS s⟩

end Sys2Proof.Machine

/-! PROOFS of the statements of 60_exceptions: what a fault changes (O45), that the record of the first one stays (O46),
and that a recorded fault decides nothing (O47). -/

namespace Sys2Proof.Machine

/-! ### The two ways a word retires (60_exceptions rules R181, R185) -/

theorem opcodeBits_of_decode_ok {w : CommandWord} {i : Instr} (h : decode w = .ok i) :
    opcodeBits (opcodeOf i) = opField w := by
  rcases decode_cases w with ⟨o, hop, hd⟩ | ⟨-, hd⟩
  · rw [hd] at h
    cases h
    rw [opcodeOf_assemble, hop]
  · rw [hd] at h
    cases h

/-- Everything a word can retire to: a fault under its own `op` field, or the `OK` response of the command it decodes
to, which leaves the record alone unless it is `RST`. -/
theorem retireWord_cases {w : CommandWord} {s t : State} (h : retireWord w s = .next t) :
    (∃ c, t = raiseFault c (opField w) s) ∨
    (∃ i u d, decode w = .ok i ∧ t = respond rcOk d u ∧ u.responses = s.responses ∧
      (i ≠ .rst → u.status.setResv false = s.status.setResv false)) := by
  cases hd : decode w with
  | ok i =>
    rw [retireWord_of_decode_ok hd] at h
    cases exec_retired h with
    | ok u d eq responses _ _ record => exact .inr ⟨i, u, d, rfl, eq, responses, record⟩
    | fault c eq => exact .inl ⟨c, opcodeBits_of_decode_ok hd ▸ eq⟩
  | error e =>
    rw [retireWord_of_decode_error hd] at h
    cases h
    exact .inl ⟨.illegalOpcode, rfl⟩

/-- A response code other than `OK` is the code of the fault the word has taken. -/
theorem eq_raiseFault_of_response {w : CommandWord} {s t : State} {rc : Byte} {d : Word}
    (h : retireWord w s = .next t) (hresp : t.responses = s.responses ++ [response rc d]) (hrc : rc ≠ 0) :
    ∃ c, rc = c.code.setWidth 8 ∧ t = raiseFault c (opField w) s := by
  rcases retireWord_cases h with ⟨c, rfl⟩ | ⟨i, u, d', -, rfl, hu, -⟩
  · obtain ⟨hc, -⟩ := response_inj (List.singleton_inj.mp (List.append_cancel_left hresp))
    exact ⟨c, hc.symm, rfl⟩
  · rw [respond_responses, hu] at hresp
    obtain ⟨hok, -⟩ := response_inj (List.singleton_inj.mp (List.append_cancel_left hresp))
    exact absurd hok.symm hrc

/-- The four bits of `FCAUSE` are the low bits of the response code (60_exceptions rule R180). -/
theorem setWidth_faultResponse (c : FaultCause) : (c.code.setWidth 8).setWidth 4 = c.code := by
  cases c <;> rfl

/-- Settles O45: the word has taken a fault (`eq_raiseFault_of_response`), and the state spelled out is
`raiseFault`. -/
theorem faultChangesOnlyTheRecord : Obligations.FaultChangesOnlyTheRecord := by
  intro w s t rc d h hresp hrc
  obtain ⟨c, rfl, rfl⟩ := eq_raiseFault_of_response h hresp hrc
  rw [setWidth_faultResponse]
  rfl

/-- Settles O46: a second fault is not recorded (`record_of_fault`), and an `OK` response leaves all of `STATUS` but
`RESV` alone. -/
theorem firstFaultStaysRecorded : Obligations.FirstFaultStaysRecorded := by
  intro w s t h hf hrst
  have hrecord : t.status.setResv false = s.status.setResv false := by
    rcases retireWord_cases h with ⟨c, rfl⟩ | ⟨i, u, d, hd, rfl, -, hu⟩
    · rw [raiseFault_status, record_of_fault c _ hf]
    · exact hu (hrst i hd)
  exact ⟨(congrArg Status.fault hrecord).trans hf,
    (congrArg Status.fcause hrecord :), (congrArg Status.fop hrecord :)⟩

/-! ### A recorded fault does not stop the core (60_exceptions rule R183)

Each operation the commands share is shown to commute with replacing `STATUS` by one with the same `RESV`; a command
then answers the same way from both states. -/

/-- Two outcomes that agree but for the fault record: next states that differ in `FAULT`, `FCAUSE` and `FOP` alone, or
the same stop of the model. -/
inductive SameButRecord : Host.Outcome State Fault Refusal → Host.Outcome State Fault Refusal → Prop
  | next (t : State) (st : Status) (resv : st.resv = t.status.resv) :
      SameButRecord (.next t) (.next { t with status := st })
  | fault (f : Fault) : SameButRecord (.fault f) (.fault f)

/-- `STATUS` is read under the index 0 alone (10_state rule R33). -/
theorem readReg_withStatus {idx : Byte} (h : idx ≠ 0x00) (s : State) (st : Status) :
    readReg { s with status := st } idx = readReg s idx := by
  unfold readReg
  split
  case h_1 h0 => exact absurd (BitVec.eq_of_toNat_eq h0) h
  all_goals rfl

theorem writeReg_withStatus (s : State) (st : Status) (idx : Byte) (v : Word) :
    writeReg { s with status := st } idx v = (writeReg s idx v).map fun t => { t with status := st } := by
  unfold writeReg
  split <;> rfl

theorem finHash_withStatus (s : State) (st : Status) : finHash { s with status := st } = finHash s :=
  finHash_congr rfl rfl rfl rfl rfl

theorem accs_withStatus (s : State) (st : Status) : accs { s with status := st } = accs s := rfl

theorem settleBlock_withStatus (off : Nat) (s : State) (st : Status) :
    settleBlock off { s with status := st } = (settleBlock off s).map fun t => { t with status := st } := by
  unfold settleBlock
  split
  · rw [accs_withStatus s st]
    cases absorb s.buf s.s1 s.s2 s.s3 (accs s) with
    | error f => rfl
    | ok e => cases shift s.buf off <;> rfl
  · rfl

theorem append_withStatus (n : Nat) (v : Word) (s : State) (st : Status) :
    append n v { s with status := st } =
      (append n v s).map fun t => { t with status := st.setResv false } := by
  unfold append
  cases hm : memWrite s.buf s.off.toNat n v with
  | error f => rfl
  | ok m =>
    obtain ⟨_, rfl⟩ := storeBytes_ok_iff.mp hm
    exact settleBlock_withStatus (s.off.toNat + n) (appended n v s) (st.setResv false)

/-- `FIN` sets `RESV` whatever `STATUS` held. -/
theorem execFin_sameButRecord (s : State) (st : Status) :
    SameButRecord (execFin s) (execFin { s with status := st }) := by
  unfold execFin
  rw [finHash_withStatus s st]
  cases finHash s with
  | ok w => exact .next (respond rcOk w { s with res := w, status := s.status.setResv true }) (st.setResv true) rfl
  | error f => exact .fault f

section
variable {s : State} {st : Status} (h : st.resv = s.status.resv)
include h

theorem raiseFault_sameButRecord (c : FaultCause) (op : Byte) :
    SameButRecord (.next (raiseFault c op s)) (.next (raiseFault c op { s with status := st })) :=
  .next (raiseFault c op s) (st.record c op) (by simp [h])

theorem put_sameButRecord (op : Opcode) (n : Nat) (v : Word) :
    SameButRecord (put op n v s) (put op n v { s with status := st }) := by
  unfold put
  rw [append_withStatus n v s st]
  split
  · exact .next (respond rcOk 0 s) st h
  · split
    · exact raiseFault_sameButRecord h .countOverflow (opcodeBits op)
    · cases ha : append n v s with
      | ok t => exact .next (respond rcOk 0 t) (st.setResv false) (append_resv ha).symm
      | error f => exact .fault f

theorem execWrreg_sameButRecord (idx : Byte) (v : Word) :
    SameButRecord (execWrreg idx v s) (execWrreg idx v { s with status := st }) := by
  unfold execWrreg
  rw [writeReg_withStatus s st]
  cases hw : writeReg s idx v with
  | some t => exact .next (respond rcOk 0 t) st (by rw [respond_status, writeReg_frame hw, h])
  | none => exact raiseFault_sameButRecord h .illegalOperand (opcodeBits .wrreg)

theorem execRdreg_sameButRecord {idx : Byte} (hidx : idx ≠ 0x00) :
    SameButRecord (execRdreg idx s) (execRdreg idx { s with status := st }) := by
  unfold execRdreg
  rw [readReg_withStatus hidx s st]
  cases readReg s idx with
  | some v => exact .next (respond rcOk v s) st h
  | none => exact raiseFault_sameButRecord h .illegalOperand (opcodeBits .rdreg)

theorem gensecWith_sameButRecord (P : GenParams) (cap : Nat) (x : Word) :
    SameButRecord (.next (gensecWith P cap x s)) (.next (gensecWith P cap x { s with status := st })) := by
  cases hg : generate P cap x with
  | some sec =>
    rw [gensecWith_some hg, gensecWith_some hg]
    exact .next (respond rcOk 0 (setSecrets s sec)) st h
  | none =>
    rw [gensecWith_none hg, gensecWith_none hg]
    exact raiseFault_sameButRecord h .genExhausted (opcodeBits .gensec)

theorem execPutb_sameButRecord (n : Byte) (v : Word) :
    SameButRecord (execPutb n v s) (execPutb n v { s with status := st }) := by
  unfold execPutb
  split
  · exact raiseFault_sameButRecord h .illegalOperand (opcodeBits .putb)
  · exact put_sameButRecord h .putb n.toNat v

/-- No command but `RDREG STATUS` reads the fault record. -/
theorem exec_sameButRecord {i : Instr} (hi : i ≠ .rdreg 0x00) :
    SameButRecord (exec i s) (exec i { s with status := st }) := by
  cases i with
  | rst => exact .next (respond rcOk 0 (toReset s)) (toReset s).status rfl
  | wrreg idx v => exact execWrreg_sameButRecord h idx v
  | rdreg idx => exact execRdreg_sameButRecord h (fun h0 => hi (congrArg Instr.rdreg h0))
  | defsec => exact .next (respond rcOk 0 (setSecrets s Config.defaultSecret)) st h
  | gensec x => exact gensecWith_sameButRecord h Config.genParams Config.ssRetryCap x
  | init => exact .next (respond rcOk 0 (bindEngine s)) (st.setResv false) rfl
  | put8 v => exact put_sameButRecord h .put8 1 (v.setWidth 64)
  | put16 v => exact put_sameButRecord h .put16 2 (v.setWidth 64)
  | put32 v => exact put_sameButRecord h .put32 4 (v.setWidth 64)
  | put64 v => exact put_sameButRecord h .put64 8 v
  | putc c => exact put_sameButRecord h .putc 2 (c.setWidth 64)
  | putb n v => exact execPutb_sameButRecord h n v
  | fin => exact execFin_sameButRecord s st

end

theorem exec_rdreg_status (s : State) : exec (.rdreg 0x00) s = .next (respond rcOk s.status.word s) := rfl

/-- Settles O47: `RDREG STATUS` changes nothing but the responses, and the outcomes of every other command are related
by `SameButRecord`. -/
theorem faultDoesNotStopTheCore : Obligations.FaultDoesNotStopTheCore := by
  intro i s t f c op ht
  by_cases hi : i = .rdreg 0x00
  · subst hi
    rw [exec_rdreg_status] at ht
    cases ht
    exact ⟨_, exec_rdreg_status _, rfl, rfl, fun hne => absurd rfl hne⟩
  · have hsame := exec_sameButRecord (s := s) (st := ⟨s.status.resv, f, c, op⟩) rfl hi
    rw [ht] at hsame
    generalize exec i { s with status := ⟨s.status.resv, f, c, op⟩ } = o at hsame ⊢
    cases hsame with
    | next _ st hresv => exact ⟨_, rfl, hresv, rfl, fun _ => rfl⟩

end Sys2Proof.Machine

/-! PROOFS of the statements of 70_reset_and_hazards: that a run of any length goes on and answers every command (O53),
the hash of the puts after reset (O58), and that the hardware reset does what `RST` does (O15). -/

namespace Sys2Proof.Machine

/-! ### Runs (70_reset_and_hazards rule R213) -/

/-- Where the invariants hold, the command word presented next is retired, answered once, and the invariants hold
after it. -/
theorem step_word_answers {s : State} {w : CommandWord} {rest : List HostAct} (hi : Inv s)
    (hin : s.inbox = .command w :: rest) :
    ∃ t r, step s = .next t ∧ Inv t ∧ t.inbox = rest ∧ t.responses = s.responses ++ [r] := by
  obtain ⟨t, ht⟩ := everyStepRetires s hi
  have hretire : retireWord w { s with inbox := rest } = .next t := (step_of_inbox_cons hin).symm.trans ht
  obtain ⟨rc, d, hresp, -⟩ := oneResponsePerCommand w _ t hretire
  exact ⟨t, rc ++ d, ht, stepKeepsTheInvariants s t hi ht, retireWord_inbox hretire, hresp⟩

/-- A run over command words, whatever the host presents after them. -/
theorem run_words_answers {ws : List CommandWord} {s : State} {rest : List HostAct} (hi : Inv s)
    (hin : s.inbox = ws.map HostAct.command ++ rest) :
    ∃ t, Host.Core.run Sys2Proof.core ws.length s = .next t ∧ Inv t ∧ t.inbox = rest ∧
      ∃ rs, t.responses = s.responses ++ rs ∧ rs.length = ws.length := by
  induction ws generalizing s with
  | nil => exact ⟨s, rfl, hi, hin, [], (List.append_nil _).symm, rfl⟩
  | cons w ws ih =>
    obtain ⟨t, r, ht, hit, htin, hresp⟩ := step_word_answers hi hin
    obtain ⟨u, hu, hiu, huin, rs, hresps, hlen⟩ := ih hit htin
    refine ⟨u, (run_succ Sys2Proof.core ws.length ht).trans hu, hiu, huin, r :: rs, ?_, congrArg Nat.succ hlen⟩
    rw [hresps, hresp, List.append_assoc, List.singleton_append]

/-- Settles O53: by induction on the words; each step retires (O52), keeps the invariants (O50) and answers once
(O10). -/
theorem runsAnswerEveryCommand : Obligations.RunsAnswerEveryCommand := fun s _ hi =>
  run_words_answers (inv_withInbox s _ hi) rfl

/-! ### The first hash after reset (70_reset_and_hazards rule R202) -/

/-- A computation that continues the reset state is hashed under the default seed and schedule (10_state rule R46). -/
theorem hash_of_continues_reset {t : State} {bs : List Byte} (h : Continues State.reset bs t) :
    wyhash64 t.stream t.is (boundSchedule t) = wyhash64 bs Config.resetSeed Config.defaultSecret := by
  obtain ⟨his, h1, h2, h3⟩ := h.bound
  rw [boundSchedule, h.stream, his, h1, h2, h3]
  exact wyhash64_xor bs Config.resetSeed Config.defaultSecret.c0 Config.defaultSecret.c1 Config.defaultSecret.c2
    Config.defaultSecret.c3

/-- Settles O58: the puts and `FIN` run from the reset state as from any whose engine holds its stream, and the reset
has bound `RESET_SEED = 0` and the default schedule. -/
theorem defaultHashAfterReset : Obligations.DefaultHashAfterReset := by
  intro is hputs hlen
  obtain ⟨u, hsu, -, hrun⟩ := run_puts_fin (s := { State.reset with inbox := presented (is ++ [.fin]) })
    (List.append_nil _).symm hputs (streamInv_withInbox _ inv_reset.engine) (by simpa [State.reset] using hlen)
  rw [hash_of_continues_reset hsu.of_withInbox] at hrun
  exact ⟨_, hrun, List.getLast?_concat⟩

/-! ### The hardware reset and `RST` (70_reset_and_hazards rule R200, 41_config rule R100) -/

/-- Settles O15: both go through `toReset`, which keeps the responses; `RST` then appends its own. -/
theorem hardwareResetEqualsRst : Obligations.HardwareResetEqualsRst := fun s rest =>
  ⟨toReset { s with inbox := rest }, respond rcOk 0 (toReset { s with inbox := rest }),
    step_of_inbox_cons (a := .reset) rfl, exec_rst _, rfl, rfl⟩

end Sys2Proof.Machine
